-- ==== Sys2Proof/Word.lean ====
section
/-! DEFINITION. The word types of the LS-8 core: what the spec treats as bits, at the widths of rule R6. -/

namespace Sys2Proof

/-- XLEN, ADDR_WIDTH and a memory cell: 8 bits (R6, R22, R35). -/
abbrev Byte := BitVec 8

/-- PC_WIDTH: the program counter is 9 bits and unsigned, so that it can hold 256 (R6, R26). -/
abbrev PcWord := BitVec 9

/-- FL_WIDTH: the flags register has exactly three bits (R6, R30). -/
abbrev FlagsWord := BitVec 3

end Sys2Proof
end

