-- ==== Sys2Proof/Syntax.lean ====
section
/-! DEFINITION. The instructions: one constructor per row of rule R80, in the table's order. -/

namespace Sys2Proof

/-- An instruction as decode reads it. A register operand is the whole operand byte, unmasked (R73); that it is below 8
is `Instr.wellFormed`, and what happens when it is not is rule R105, in the meanings. `ra` is op1 and `rb` is op2 (R9). -/
inductive Instr where
  /-- HLT, R110. -/
  | hlt
  /-- LDI rA, imm, R111. -/
  | ldi (ra imm : Byte)
  /-- PRN rA, R112. -/
  | prn (ra : Byte)
  /-- ADD rA, rB, R125. -/
  | add (ra rb : Byte)
  /-- SUB rA, rB, R126. -/
  | sub (ra rb : Byte)
  /-- MUL rA, rB, R127. -/
  | mul (ra rb : Byte)
  /-- MOD rA, rB, R128. -/
  | mod (ra rb : Byte)
  /-- AND rA, rB, R129. -/
  | and (ra rb : Byte)
  /-- OR rA, rB, R130. -/
  | or (ra rb : Byte)
  /-- XOR rA, rB, R131. -/
  | xor (ra rb : Byte)
  /-- NOT rA, R132. -/
  | not (ra : Byte)
  /-- SHL rA, rB, R133. -/
  | shl (ra rb : Byte)
  /-- SHR rA, rB, R134. -/
  | shr (ra rb : Byte)
  /-- CMP rA, rB, R150. -/
  | cmp (ra rb : Byte)
  /-- JMP rA, R161. -/
  | jmp (ra : Byte)
  /-- JEQ rA, R162. -/
  | jeq (ra : Byte)
  /-- JNE rA, R163. -/
  | jne (ra : Byte)
  /-- PUSH rA, R180. -/
  | push (ra : Byte)
  /-- POP rA, R181. -/
  | pop (ra : Byte)
  /-- CALL rA, R182. -/
  | call (ra : Byte)
  /-- RET, R183. -/
  | ret
deriving DecidableEq, Repr

end Sys2Proof
end

