-- ==== Sys2Proof/Decode.lean ====
section
/-! DEFINITION. The opcode table of rule R80, the decoder and the encoder. Everything is written by mnemonic over an
opcode map (R82); `opcodeMap` is the map of R80, and `decode` and `encode` take it. -/

namespace Sys2Proof

/-- The 21 mnemonics, in the order of R80. -/
inductive Op where
  | hlt | ldi | prn | add | sub | mul | mod | and | or | xor | not | shl | shr | cmp
  | jmp | jeq | jne | push | pop | call | ret
deriving DecidableEq, Repr

/-- The four formats of R71. -/
inductive Format where
  /-- One byte: the opcode. -/
  | f0
  /-- Two bytes: opcode, register index. -/
  | fr
  /-- Three bytes: opcode, register index, register index. -/
  | frr
  /-- Three bytes: opcode, register index, immediate. -/
  | fri
deriving DecidableEq, Repr

/-- Why bytes give no instruction. -/
inductive DecodeError where
  /-- There is no opcode byte to read; the engine raises BOUNDS_FETCH (R101). Safe: the spec's own fault. -/
  | noOpcode
  /-- The opcode byte is one of the 235 unrecognized values; the engine raises DECODE (R86, R102). Safe: the spec's own fault. -/
  | unknownOpcode (opcode : Byte)
  /-- Byte k of the instruction is not there to read; the engine raises BOUNDS_OPERAND (R103). Safe: the spec's own fault. -/
  | missingOperand (k : Nat)
deriving DecidableEq, Repr

/-- Every mnemonic, in the order of R80. -/
def Op.all : List Op :=
  [.hlt, .ldi, .prn, .add, .sub, .mul, .mod, .and, .or, .xor, .not, .shl, .shr, .cmp,
   .jmp, .jeq, .jne, .push, .pop, .call, .ret]

/-- The format of each mnemonic (R71, R80). -/
def Op.format : Op → Format
  | .hlt => .f0
  | .ldi => .fri
  | .prn => .fr
  | .add => .frr
  | .sub => .frr
  | .mul => .frr
  | .mod => .frr
  | .and => .frr
  | .or => .frr
  | .xor => .frr
  | .not => .fr
  | .shl => .frr
  | .shr => .frr
  | .cmp => .frr
  | .jmp => .fr
  | .jeq => .fr
  | .jne => .fr
  | .push => .fr
  | .pop => .fr
  | .call => .fr
  | .ret => .f0

/-- The length in bytes of a format (R71). -/
def Format.width : Format → Nat
  | .f0 => 1
  | .fr => 2
  | .frr => 3
  | .fri => 3

/-- The fixed length in bytes of an instruction: looked up by opcode, never read from its bits (R70, R75). -/
def Op.width (o : Op) : Nat := o.format.width

/-- Which operand bytes of a format are register indices, in operand order (R71, R105). -/
def Format.regOperands (f : Format) (op1 op2 : Byte) : List Byte :=
  match f with
  | .f0 => []
  | .fr => [op1]
  | .frr => [op1, op2]
  | .fri => [op1]

/-- An assignment of opcode bytes to mnemonics, the parameter OPCODE_MAP of R82. -/
abbrev OpcodeMap := Op → Byte

/-- The opcode map of R80. HLT, LDI and PRN are the source's; the other 18 are general knowledge the spec takes (R82,
notes/assumptions/1.md). -/
def opcodeMap : OpcodeMap
  | .hlt => 0x01
  | .ldi => 0x82
  | .prn => 0x47
  | .add => 0xA0
  | .sub => 0xA1
  | .mul => 0xA2
  | .mod => 0xA4
  | .and => 0xA8
  | .or => 0xAA
  | .xor => 0xAB
  | .not => 0x69
  | .shl => 0xAC
  | .shr => 0xAD
  | .cmp => 0xA7
  | .jmp => 0x54
  | .jeq => 0x55
  | .jne => 0x56
  | .push => 0x45
  | .pop => 0x46
  | .call => 0x50
  | .ret => 0x11

/-- What R82 asks of an opcode map: injective, HLT, LDI and PRN as the source prints them (R81), and bits 7:6 of every
byte equal to the mnemonic's number of operand bytes (R75). -/
def OpcodeMap.legal (m : OpcodeMap) : Bool :=
  decide (∀ a ∈ Op.all, ∀ b ∈ Op.all, m a = m b → a = b) &&
  decide (m .hlt = 0b00000001) && decide (m .ldi = 0b10000010) && decide (m .prn = 0b01000111) &&
  decide (∀ a ∈ Op.all, ((m a).extractLsb' 6 2).toNat = a.width - 1)

/-- The instruction a mnemonic makes of its operand bytes; operand bytes the format does not have are not looked at
(R71, R103). -/
def Op.build (o : Op) (op1 op2 : Byte) : Instr :=
  match o with
  | .hlt => .hlt
  | .ldi => .ldi op1 op2
  | .prn => .prn op1
  | .add => .add op1 op2
  | .sub => .sub op1 op2
  | .mul => .mul op1 op2
  | .mod => .mod op1 op2
  | .and => .and op1 op2
  | .or => .or op1 op2
  | .xor => .xor op1 op2
  | .not => .not op1
  | .shl => .shl op1 op2
  | .shr => .shr op1 op2
  | .cmp => .cmp op1 op2
  | .jmp => .jmp op1
  | .jeq => .jeq op1
  | .jne => .jne op1
  | .push => .push op1
  | .pop => .pop op1
  | .call => .call op1
  | .ret => .ret

/-- The mnemonic of an instruction (R80). -/
def Instr.op : Instr → Op
  | .hlt => .hlt
  | .ldi _ _ => .ldi
  | .prn _ => .prn
  | .add _ _ => .add
  | .sub _ _ => .sub
  | .mul _ _ => .mul
  | .mod _ _ => .mod
  | .and _ _ => .and
  | .or _ _ => .or
  | .xor _ _ => .xor
  | .not _ => .not
  | .shl _ _ => .shl
  | .shr _ _ => .shr
  | .cmp _ _ => .cmp
  | .jmp _ => .jmp
  | .jeq _ => .jeq
  | .jne _ => .jne
  | .push _ => .push
  | .pop _ => .pop
  | .call _ => .call
  | .ret => .ret

/-- The operand bytes of an instruction, in the order op1, op2 (R72). -/
def Instr.operands : Instr → List Byte
  | .hlt => []
  | .ldi ra imm => [ra, imm]
  | .prn ra => [ra]
  | .add ra rb => [ra, rb]
  | .sub ra rb => [ra, rb]
  | .mul ra rb => [ra, rb]
  | .mod ra rb => [ra, rb]
  | .and ra rb => [ra, rb]
  | .or ra rb => [ra, rb]
  | .xor ra rb => [ra, rb]
  | .not ra => [ra]
  | .shl ra rb => [ra, rb]
  | .shr ra rb => [ra, rb]
  | .cmp ra rb => [ra, rb]
  | .jmp ra => [ra]
  | .jeq ra => [ra]
  | .jne ra => [ra]
  | .push ra => [ra]
  | .pop ra => [ra]
  | .call ra => [ra]
  | .ret => []

/-- The mnemonic whose opcode the byte is, compared whole (mask 0xFF), or none (R85). -/
def opFor (m : OpcodeMap) (b : Byte) : Option Op := Op.all.find? fun o => decide (m o = b)

/-- Read an instruction from a source of bytes: `get k` is byte k of the instruction, or none where there is no such
byte. It reads the opcode, then exactly the operand bytes the opcode has, in ascending order (R70 to R74, R85, R103). -/
def decodeFrom (m : OpcodeMap) (get : Nat → Option Byte) : Except DecodeError Instr :=
  match get 0 with
  | none => .error .noOpcode
  | some opc =>
    match opFor m opc with
    | none => .error (.unknownOpcode opc)
    | some o =>
      match o.width with
      | 1 => .ok (o.build 0 0)
      | 2 =>
        match get 1 with
        | none => .error (.missingOperand 1)
        | some op1 => .ok (o.build op1 0)
      | _ =>
        match get 1 with
        | none => .error (.missingOperand 1)
        | some op1 =>
          match get 2 with
          | none => .error (.missingOperand 2)
          | some op2 => .ok (o.build op1 op2)

/-- Decode the front of a list of bytes under an opcode map: the instruction and the bytes after it. -/
def decodeWith (m : OpcodeMap) (bytes : List Byte) : Except DecodeError (Instr × List Byte) :=
  match decodeFrom m (fun k => bytes[k]?) with
  | .error e => .error e
  | .ok i => .ok (i, bytes.drop i.op.width)

/-- Decode the front of a list of bytes (R85, R86). -/
def decode (bytes : List Byte) : Except DecodeError (Instr × List Byte) := decodeWith opcodeMap bytes

/-- The bytes of an instruction under an opcode map, in ascending address order: opcode, op1, op2 (R72). -/
def encodeWith (m : OpcodeMap) (i : Instr) : List Byte := m i.op :: i.operands

/-- The bytes of an instruction (R71, R72, R80). -/
def encode (i : Instr) : List Byte := encodeWith opcodeMap i

/-- The three bytes of a word numbered as the opcode table numbers it (bit 0 is the least significant bit of the first
byte), the bits at and above `nbits` taken as zero. Three bytes is the longest instruction (R70). -/
def tableWordBytes (nbits w : Nat) : List Byte :=
  let v := w % 2 ^ nbits
  [BitVec.ofNat 8 v, BitVec.ofNat 8 (v / 2 ^ 8), BitVec.ofNat 8 (v / 2 ^ 16)]

/-- The instruction the decoder reads from a word of the opcode table. -/
def decodeTableWord (nbits w : Nat) : Option Instr :=
  match decode (tableWordBytes nbits w) with
  | .ok (i, _) => some i
  | .error _ => none

end Sys2Proof
end

