-- ==== Sys2Proof/Config.lean ====
section
/-! DEFINITION. The implementation parameters of rule R6 that the spec fixes. The opcode values stand in Decode.lean and
the PC advance of HLT in Machine/System.lean, where a later repair may mend them. The core has no free value: every
point its source leaves open is decided by a numbered rule (notes/assumptions). -/

namespace Sys2Proof.Config

/-- MEM_SIZE: 256 byte-wide cells, addresses 0 to 255 (R6, R35). -/
def memSize : Nat := 256

/-- SP_REG: register 7 is the stack pointer by convention (R6, R24). -/
def spReg : Fin 8 := 7

/-- SP_INIT: the stack pointer's reset value (R6, R25). -/
def spInit : Byte := 0xF4

/-- FL_INIT, the parameter of R33, at its default. Statements about reset quantify over it (notes/assumptions/2.md). -/
def flInit : FlagsWord := 0b000

end Sys2Proof.Config
end

