-- ==== Sys2Proof/Machine/State.lean ====
section
/-! DEFINITION. The state of the LS-8 core: everything 10_state.md gives the machine, as plain data, and its value
right after reset (R230). -/

namespace Sys2Proof.Machine

/-- The run state (R37). -/
inductive RunState where
  /-- The only state in which a step happens (R100). -/
  | running
  /-- After HLT; terminal (R107). -/
  | halted
  /-- After a fatal fault; terminal (R107, R200). -/
  | faulted
deriving DecidableEq, Repr

/-- The fault causes of R201. -/
inductive FaultCause where
  | none
  | decode
  | boundsFetch
  | boundsOperand
  | boundsRegister
  | boundsStack
  | boundsRetAddr
  | arithModZero
  /-- Reserved: nothing raises it (R124, R210). -/
  | arithUnsupported
deriving DecidableEq, Repr

/-- The fault record: the cause and the information word of the fault that stopped the core (R38, R201). The spec gives
the information word no width; it is a number here (notes/assumptions/5.md). -/
structure FaultRecord where
  cause : FaultCause
  info : Nat
deriving DecidableEq, Repr

/-- Memory as the cells that hold something other than 0, addresses strictly rising; an unlisted address reads as 0, its
reset value (R36). Its operations are in Ops.lean. -/
abbrev Memory := List Host.Cell

/-- The state of the core. The spec names no other (R34, R39, R45). -/
structure State where
  /-- R0 to R7, 8 bits each; R7 is SP (R20, R24). -/
  regs : Vector Byte 8
  /-- The program counter, 9 bits, 0 to 256 (R26, R28). -/
  pc : PcWord
  /-- The flags register: bit 0 is E, bit 1 is G, bit 2 is L (R30). -/
  fl : FlagsWord
  /-- The one memory, holding code, data and stack (R35). -/
  mem : Memory
  /-- The run state (R37). -/
  run : RunState
  /-- The fault record (R38). -/
  fault : FaultRecord
  /-- The output stream: the values PRN emitted, oldest first (R42). -/
  output : List Byte
deriving DecidableEq, Repr

/-- Why no step is taken. A core fault of R201 is not here: the step that raises one answers a next state whose run
state is FAULTED (R106, R200; notes/assumptions/4.md). -/
inductive Fault where
  /-- Raised by step in a HALTED state: no step is taken from it (R107). Safe: the spec says that there is no step. -/
  | halted
  /-- Raised by step in a FAULTED state, with the fault record that stopped the core: no step is taken from it (R107).
  Safe: the spec says that there is no step. -/
  | faulted (record : FaultRecord)
deriving DecidableEq, Repr

/-- Why an instruction has no meaning. -/
inductive Refusal where
  /-- Raised by exec's arm of an instruction that has no meaning yet. No arm of this model raises it. Safe. -/
  | notModelled (mnemonic : String)
deriving DecidableEq, Repr

/-- What an instruction or a step answers. -/
abbrev Result := Host.Outcome State Fault Refusal

/-- The machine right after reset, FL holding the parameter FL_INIT (R33, R230). -/
def State.resetWith (flInit : FlagsWord) : State where
  regs := #v[0, 0, 0, 0, 0, 0, 0, Config.spInit]
  pc := 0
  fl := flInit
  mem := []
  run := .running
  fault := { cause := .none, info := 0 }
  output := []

/-- The machine right after reset, before a program is loaded (R230, R231). -/
def State.reset : State := State.resetWith Config.flInit

end Sys2Proof.Machine
end

