-- ==== Sys2Proof/Machine/Ops.lean ====
section
/-! DEFINITION. The named operations over memory, registers, the program counter and the ports, and raising a fault: the
primitives of rule R8, each written once. -/

namespace Sys2Proof.Machine

/-! ### Memory as data -/

/-- Every listed address is at least `lo` and below 256, addresses rise strictly, and no cell holds 0. -/
def Memory.wfFrom (lo : Nat) : Memory → Bool
  | [] => true
  | (a, v) :: m => decide (lo ≤ a) && decide (a < Config.memSize) && decide (v ≠ 0#8) && Memory.wfFrom (a + 1) m

/-- The canonical form of memory: equal memories are equal lists. -/
def Memory.wf (m : Memory) : Bool := Memory.wfFrom 0 m

/-- The byte at an address: 0 where nothing is listed, the reset value (R36, R59). -/
def Memory.read : Memory → Nat → Byte
  | [], _ => 0#8
  | (b, w) :: m, a => if a = b then w else Memory.read m a

/-- Store one byte, keeping the canonical form (R50, R55). -/
def Memory.write : Memory → Nat → Byte → Memory
  | [], a, v => if v = 0#8 then [] else [(a, v)]
  | (b, w) :: m, a, v =>
    if a < b then (if v = 0#8 then (b, w) :: m else (a, v) :: (b, w) :: m)
    else if a = b then (if v = 0#8 then m else (a, v) :: m)
    else (b, w) :: Memory.write m a v

/-- Store bytes at consecutive addresses from `a` upward; a byte that would lie at 256 or above is not stored. -/
def Memory.writeBytes (m : Memory) (a : Nat) : List Byte → Memory
  | [] => m
  | v :: vs => Memory.writeBytes (if a < Config.memSize then m.write a v else m) (a + 1) vs

/-! ### The primitives of R8 -/

/-- `x[i]` (R8, R20). No register is hard-wired. -/
def State.getReg (s : State) (i : Fin 8) : Byte := s.regs[i]

/-- `x[i] <- v` (R8, R22). -/
def State.setReg (s : State) (i : Fin 8) (v : Byte) : State := { s with regs := s.regs.set i v }

/-- The stack pointer, register 7 (R24). -/
def State.sp (s : State) : Byte := s.getReg Config.spReg

/-- Write the stack pointer (R24). -/
def State.setSp (s : State) (v : Byte) : State := s.setReg Config.spReg v

/-- `pc <- target` for a target held in a byte: always 0 to 255 (R28, R160). -/
def State.setPc (s : State) (target : Byte) : State := { s with pc := target.setWidth 9 }

/-- `pc <- pc + width` (R104). -/
def State.advance (s : State) (width : PcWord) : State := { s with pc := s.pc + width }

/-- `FL <- v` (R8, R31). -/
def State.setFl (s : State) (v : FlagsWord) : State := { s with fl := v }

/-- `MemRead(addr, 1)` at an address held in a byte: always inside memory (R50, R51). -/
def State.memRead (s : State) (addr : Byte) : Byte := s.mem.read addr.toNat

/-- `MemWrite(addr, 1, v)` at an address held in a byte: always inside memory (R50, R51). -/
def State.memWrite (s : State) (addr v : Byte) : State := { s with mem := s.mem.write addr.toNat v }

/-- The byte at an address computed from PC, or none at 256 and above, where there is no memory: the address is never
reduced modulo 256 (R51). -/
def State.byteAt? (s : State) (addr : Nat) : Option Byte :=
  if addr < Config.memSize then some (s.mem.read addr) else none

/-- `Emit(v)`: append v to the output stream (R8, R42). -/
def State.emit (s : State) (v : Byte) : State := { s with output := s.output ++ [v] }

/-- `halt`: set the run state to HALTED (R8, R110). -/
def State.halt (s : State) : State := { s with run := .halted }

/-! ### Faults -/

/-- The state after a fault: the state before the faulting step, with the run state FAULTED and the fault record set
(R106, R200, R202). -/
def State.takeFault (s : State) (cause : FaultCause) (info : Nat) : State :=
  { s with run := .faulted, fault := { cause := cause, info := info } }

/-- `raise Fault(cause, info)` (R8, R200). `s` is the state BEFORE the faulting step, so that no write of the faulting
instruction survives (R202). There is no handler, no vector and no return from a fault (R214, R215). -/
def raise (cause : FaultCause) (info : Nat) (s : State) : Result := .next (s.takeFault cause info)

/-- The numeric code of a fault cause (R201). -/
def FaultCause.code : FaultCause → Nat
  | .none => 0
  | .decode => 1
  | .boundsFetch => 2
  | .boundsOperand => 3
  | .boundsRegister => 4
  | .boundsStack => 5
  | .boundsRetAddr => 6
  | .arithModZero => 7
  | .arithUnsupported => 8

end Sys2Proof.Machine
end

