-- ==== Sys2Proof/Machine/Flags.lean ====
section
/-! DEFINITION. The flags register: its three bits (R30) and the one flag computation there is, CMP's (R150). -/

namespace Sys2Proof.Machine

/-- FL.E, bit 0: equal (R30). -/
def flagE (fl : FlagsWord) : Bool := fl.getLsbD 0

/-- FL.G, bit 1: greater-than (R30). Read by no instruction (R32). -/
def flagG (fl : FlagsWord) : Bool := fl.getLsbD 1

/-- FL.L, bit 2: less-than (R30). Read by no instruction (R32). -/
def flagL (fl : FlagsWord) : Bool := fl.getLsbD 2

/-- What CMP writes to FL: all three bits, exactly one of them set, by unsigned comparison (R150). -/
def compareFlags (a b : Byte) : FlagsWord :=
  if a.toNat = b.toNat then 0b001 else if b.toNat < a.toNat then 0b010 else 0b100

end Sys2Proof.Machine
end

