-- ==== Sys2Proof/Machine/Operands.lean ====
section
/-! DEFINITION. The operand forms: a register named by an operand byte, one or two of them (R73, R105), and the stack
pointer as the stack instructions move it (R170). An immediate is its whole byte and needs no form (R74). -/

namespace Sys2Proof.Machine

/-- The operand byte that names a register. -/
def regByte (r : Fin 8) : Byte := BitVec.ofNat 8 r.val

/-- One register operand: the whole byte is the index, unmasked; 8 or more raises BOUNDS_REGISTER with the byte (R73,
R105, R205). -/
def withReg (b : Byte) (s : State) (k : Fin 8 → Result) : Result :=
  if h : b.toNat < 8 then k ⟨b.toNat, h⟩ else raise .boundsRegister b.toNat s

/-- Two register operands, rA checked before rB (R105, R211). -/
def withRegs (ra rb : Byte) (s : State) (k : Fin 8 → Fin 8 → Result) : Result :=
  withReg ra s fun a => withReg rb s fun b => k a b

/-- Move SP down by one, as PUSH and CALL begin; SP = 0 raises BOUNDS_STACK instead (R170, R206). `k` gets the state with
the new SP. -/
def withSpDown (s : State) (k : State → Result) : Result :=
  if s.sp = 0 then raise .boundsStack s.sp.toNat s else k (s.setSp (s.sp - 1))

/-- Move the SP of `cur` up by one, as POP and RET end; SP = 255 raises BOUNDS_STACK instead (R170, R206). `start` is the
state before the instruction, which a fault leaves (R202). `k` gets `cur` with the new SP. -/
def withSpUp (start cur : State) (k : State → Result) : Result :=
  if cur.sp = 255 then raise .boundsStack cur.sp.toNat start else k (cur.setSp (cur.sp + 1))

end Sys2Proof.Machine
end

