-- ==== Sys2Proof/Machine/Alu.lean ====
section
/-! DEFINITION. The ALU instructions (41_alu.md): each a pure result of the operand values, which the engine writes to
rA, or to FL for CMP (R120). Operands are unsigned, results wrap modulo 256 and only CMP writes FL (R121 to R123). -/

namespace Sys2Proof.Machine

/-- A two-register operation that writes its result to rA. Both operands are read before the write (R120, R125 to
R134); width 3. -/
def aluBinary (f : Byte → Byte → Byte) (ra rb : Byte) (s : State) : Result :=
  withRegs ra rb s fun a b => .next ((s.setReg a (f (s.getReg a) (s.getReg b))).advance 3)

/-- ADD: (a + b) mod 256 (R125). -/
def aluAdd (a b : Byte) : Byte := a + b

/-- SUB: (a + 256 - b) mod 256 (R126). -/
def aluSub (a b : Byte) : Byte := a - b

/-- MUL: the low 8 bits of the product (R127). -/
def aluMul (a b : Byte) : Byte := a * b

/-- MOD for a divisor that is not 0: the unsigned remainder (R128). -/
def aluMod (a b : Byte) : Byte := a.umod b

/-- AND, bit by bit (R129). -/
def aluAnd (a b : Byte) : Byte := a &&& b

/-- OR, bit by bit (R130). -/
def aluOr (a b : Byte) : Byte := a ||| b

/-- XOR, bit by bit (R131). -/
def aluXor (a b : Byte) : Byte := a ^^^ b

/-- NOT: all 8 bits inverted (R132). -/
def aluNot (a : Byte) : Byte := ~~~a

/-- SHL by the whole unsigned byte b, zeros in at bit 0 (R133). -/
def aluShl (a b : Byte) : Byte := a <<< b.toNat

/-- SHR by the whole unsigned byte b, zeros in at bit 7: logical (R134). -/
def aluShr (a b : Byte) : Byte := a >>> b.toNat

/-- ADD rA, rB (R125). -/
def execAdd (ra rb : Byte) (s : State) : Result := aluBinary aluAdd ra rb s

/-- SUB rA, rB (R126). -/
def execSub (ra rb : Byte) (s : State) : Result := aluBinary aluSub ra rb s

/-- MUL rA, rB (R127). -/
def execMul (ra rb : Byte) (s : State) : Result := aluBinary aluMul ra rb s

/-- MOD rA, rB (R128): a divisor of 0 raises ARITH_MOD_ZERO with rB's index (R209). -/
def execMod (ra rb : Byte) (s : State) : Result :=
  withRegs ra rb s fun a b =>
    if s.getReg b = 0 then raise .arithModZero b.val s
    else .next ((s.setReg a (aluMod (s.getReg a) (s.getReg b))).advance 3)

/-- AND rA, rB (R129). -/
def execAnd (ra rb : Byte) (s : State) : Result := aluBinary aluAnd ra rb s

/-- OR rA, rB (R130). -/
def execOr (ra rb : Byte) (s : State) : Result := aluBinary aluOr ra rb s

/-- XOR rA, rB (R131). -/
def execXor (ra rb : Byte) (s : State) : Result := aluBinary aluXor ra rb s

/-- NOT rA (R132); width 2. -/
def execNot (ra : Byte) (s : State) : Result :=
  withReg ra s fun a => .next ((s.setReg a (aluNot (s.getReg a))).advance 2)

/-- SHL rA, rB (R133). -/
def execShl (ra rb : Byte) (s : State) : Result := aluBinary aluShl ra rb s

/-- SHR rA, rB (R134). -/
def execShr (ra rb : Byte) (s : State) : Result := aluBinary aluShr ra rb s

/-- CMP rA, rB (R150): writes FL only. -/
def execCmp (ra rb : Byte) (s : State) : Result :=
  withRegs ra rb s fun a b => .next ((s.setFl (compareFlags (s.getReg a) (s.getReg b))).advance 3)

end Sys2Proof.Machine
end

