-- ==== Sys2Proof/Machine/Branch.lean ====
section
/-! DEFINITION. The branch instructions (42_branch.md): every target is the value of a register (R160). -/

namespace Sys2Proof.Machine

/-- Jump to the address in rA if `taken`, else advance by the width 2. The register is checked either way (R160, R162). -/
def branchIf (taken : Bool) (ra : Byte) (s : State) : Result :=
  withReg ra s fun a => .next (if taken then s.setPc (s.getReg a) else s.advance 2)

/-- JMP rA (R161). -/
def execJmp (ra : Byte) (s : State) : Result := branchIf true ra s

/-- JEQ rA (R162): taken when FL.E is 1. -/
def execJeq (ra : Byte) (s : State) : Result := branchIf (flagE s.fl) ra s

/-- JNE rA (R163): taken when FL.E is 0. -/
def execJne (ra : Byte) (s : State) : Result := branchIf (!flagE s.fl) ra s

end Sys2Proof.Machine
end

