-- ==== Sys2Proof/Machine/Stack.lean ====
section
/-! DEFINITION. The stack instructions, calls and returns (43_stack.md): a full descending stack at SP (R171). Each
follows the source's order of steps literally, so that an operand register of R7 sees SP already moved (R172). -/

namespace Sys2Proof.Machine

/-- PUSH rA (R180): x[rA] is read after the decrement. -/
def execPush (ra : Byte) (s : State) : Result :=
  withReg ra s fun a =>
    withSpDown s fun t => .next ((t.memWrite t.sp (t.getReg a)).advance 2)

/-- POP rA (R181): SP is incremented after x[rA] is written, so POP R7 leaves the popped value plus 1. -/
def execPop (ra : Byte) (s : State) : Result :=
  withReg ra s fun a =>
    withSpUp s (s.setReg a (s.memRead s.sp)) fun t => .next (t.advance 2)

/-- CALL rA (R182): the return address must fit in a byte, and x[rA] is read after the decrement. -/
def execCall (ra : Byte) (s : State) : Result :=
  withReg ra s fun a =>
    withSpDown s fun t =>
      let ret := s.pc.toNat + 2
      if ret ≥ Config.memSize then raise .boundsRetAddr ret s
      else .next ((t.memWrite t.sp (BitVec.ofNat 8 ret)).setPc (t.getReg a))

/-- RET (R183): the return address is the byte at SP. -/
def execRet (s : State) : Result :=
  withSpUp s s fun t => .next (t.setPc (s.memRead s.sp))

end Sys2Proof.Machine
end

