-- ==== Sys2Proof/Machine/System.lean ====
section
/-! DEFINITION. HLT, LDI and PRN (40_engine_and_system.md). -/

namespace Sys2Proof.Machine

/-- HLT_PC_ADVANCE, at the value R110 takes (R6; notes/assumptions/3.md). -/
def hltPcAdvance : PcWord := 1

/-- HLT (R110). -/
def execHlt (s : State) : Result := .next (s.halt.advance hltPcAdvance)

/-- LDI rA, imm (R111). The immediate is not checked. -/
def execLdi (ra imm : Byte) (s : State) : Result :=
  withReg ra s fun a => .next ((s.setReg a imm).advance 3)

/-- PRN rA (R112): emits the unsigned byte. -/
def execPrn (ra : Byte) (s : State) : Result :=
  withReg ra s fun a => .next ((s.emit (s.getReg a)).advance 2)

end Sys2Proof.Machine
end

