-- ==== Sys2Proof/Machine/Engine.lean ====
section
/-! DEFINITION. The fetch-decode-execute engine (40_engine_and_system.md): the step of R100, written over an opcode map
(R82). -/

namespace Sys2Proof.Machine

/-- The fault the engine raises when no instruction can be read at PC (R101 to R103). -/
def fetchFault (s : State) : DecodeError → FaultRecord
  | .noOpcode => { cause := .boundsFetch, info := s.pc.toNat }
  | .unknownOpcode opc => { cause := .decode, info := opc.toNat }
  | .missingOperand k => { cause := .boundsOperand, info := s.pc.toNat + k }

/-- Byte k of the instruction at PC, the byte at PC + k, or none where that is 256 or more (R72, R101, R103). -/
def State.codeAt (s : State) (k : Nat) : Option Byte := s.byteAt? (s.pc.toNat + k)

/-- Fetch, decode and operand fetch: the instruction whose bytes lie at PC, PC+1 and PC+2, reading exactly the bytes it
has, or the fault (R100 to R103, R72). -/
def fetchWith (m : OpcodeMap) (s : State) : Except FaultRecord Instr :=
  match decodeFrom m s.codeAt with
  | .ok i => .ok i
  | .error e => .error (fetchFault s e)

/-- One step (R100), under an opcode map. HALTED and FAULTED take no step (R107). -/
def stepWith (m : OpcodeMap) (s : State) : Result :=
  match s.run with
  | .halted => .fault .halted
  | .faulted => .fault (.faulted s.fault)
  | .running =>
    match fetchWith m s with
    | .error f => raise f.cause f.info s
    | .ok i => exec i s

/-- The bytes of memory from PC on that an instruction can have: at most three, and none at 256 or above. -/
def State.codeBytes (s : State) : List Byte :=
  (List.range 3).filterMap s.codeAt

/-- Store the bytes of a word of the opcode table where the next step fetches, from PC upward; a byte that would lie at
256 or above has no memory to go to. -/
def State.storeWordAtPc (s : State) (nbits w : Nat) : State :=
  { s with mem := s.mem.writeBytes s.pc.toNat (tableWordBytes nbits w) }

end Sys2Proof.Machine
end

