-- ==== Sys2Proof/Machine/Step.lean ====
section
/-! DEFINITION. The step of the LS-8 core: the engine under the opcode map of R80. -/

namespace Sys2Proof.Machine

/-- One step: fetch, decode and execute exactly one instruction (R100, R106). -/
def step (s : State) : Host.Outcome State Fault Refusal := stepWith opcodeMap s

/-- The state with an instruction, given as a word of the opcode table, stored at PC, where step fetches. Nothing but
memory changes; from reset this stands for the host's load of a program at address 0 (R240, notes/assumptions/7.md). -/
def State.withFetchWord (s : State) (nbits w : Nat) : State := s.storeWordAtPc nbits w

end Sys2Proof.Machine
end

