-- ==== Sys2Proof/Machine/Port.lean ====
section
/-! DEFINITION. The host's side of the core (R40, R246): the load port, the status outputs and the observation port. The
output port is `State.emit`. There is no input to a running core. -/

namespace Sys2Proof.Machine

/-- The load port (R41, R240): from reset, before the first step, the program's bytes go to addresses 0 upward; a
program of more than 256 bytes is a host error and the core does not start. -/
def State.boot (flInit : FlagsWord) (program : List Byte) : Option State :=
  if program.length ≤ Config.memSize then
    some { State.resetWith flInit with mem := (State.resetWith flInit).mem.writeBytes 0 program }
  else none

/-- What the status outputs show (R43). -/
structure Status where
  run : RunState
  fault : FaultRecord
deriving DecidableEq, Repr

/-- The status outputs: the run state and the fault record (R43). -/
def State.status (s : State) : Status := { run := s.run, fault := s.fault }

/-- What the observation port shows (R44). -/
structure Observation where
  pc : PcWord
  regs : Vector Byte 8
  fl : FlagsWord
  /-- The 256 bytes of memory, address 0 first. -/
  bytes : List Byte
deriving DecidableEq, Repr

/-- The observation port: PC, the registers, FL and every memory byte, once the run state is not RUNNING (R44, R241).
It is a read and changes nothing. -/
def State.observe (s : State) : Option Observation :=
  match s.run with
  | .running => none
  | .halted | .faulted =>
    some { pc := s.pc, regs := s.regs, fl := s.fl, bytes := (List.range Config.memSize).map s.mem.read }

end Sys2Proof.Machine
end

