-- ==== Sys2Proof/Safety.lean ====
section
/-! DEFINITION. The terms claims are stated in: what a fault leaves, what the fault record can hold, the invariant of
the machine, how a run ends (R245), and the shapes that several instruction rules share. -/

namespace Sys2Proof.Machine

/-- Executing the instruction raises `Fault(cause, info)`: the state is as before but for the run state and the fault
record (R200, R202). -/
def ExecFaults (i : Instr) (s : State) (cause : FaultCause) (info : Nat) : Prop :=
  exec i s = .next { s with run := .faulted, fault := { cause := cause, info := info } }

/-- The step raises `Fault(cause, info)` (R106, R200, R202). -/
def StepFaults (s : State) (cause : FaultCause) (info : Nat) : Prop :=
  step s = .next { s with run := .faulted, fault := { cause := cause, info := info } }

/-- A fault record that a core fault can leave: the cause and the values of the information word that R201 gives it. -/
def FaultRecord.Documented (f : FaultRecord) : Prop :=
  match f.cause with
  | .none => False
  | .decode => f.info < 256 ∧ opFor opcodeMap (BitVec.ofNat 8 f.info) = none
  | .boundsFetch => f.info = 256
  | .boundsOperand => f.info = 256
  | .boundsRegister => 8 ≤ f.info ∧ f.info ≤ 255
  | .boundsStack => f.info = 0 ∨ f.info = 255
  | .boundsRetAddr => f.info = 256
  | .arithModZero => f.info < 8
  | .arithUnsupported => False

/-- The invariant of the machine. -/
structure State.Inv (s : State) : Prop where
  /-- Memory is in its canonical form, every listed address in 0 to 255 (R35). -/
  memory : s.mem.wf = true
  /-- PC can never exceed 256 (R28). -/
  pcRange : s.pc.toNat ≤ 256
  /-- The fault record is (NONE, 0) until a fault (R38). -/
  noFault : s.run ≠ .faulted → s.fault = { cause := .none, info := 0 }
  /-- After a fault the record holds one of the pairs of R201. -/
  faulted : s.run = .faulted → s.fault.Documented

/-- `n` steps, one after another, stopping where no step is taken (R100, R107). -/
def runSteps : Nat → State → Result
  | 0, s => .next s
  | n + 1, s =>
    match step s with
    | .next t => runSteps n t
    | .fault f => .fault f
    | .refused r => .refused r

/-- `n` steps from `s` are all taken and lead to `t`. -/
def RunsTo (n : Nat) (s t : State) : Prop := runSteps n s = .next t

/-- The run from `s` ends in `t` after `n` steps: the run state leaves RUNNING there (R245). -/
def EndsIn (n : Nat) (s t : State) : Prop := RunsTo n s t ∧ t.run ≠ .running

/-- The normal end of a run: a HLT was executed (R245). -/
def EndsHalted (n : Nat) (s t : State) : Prop := RunsTo n s t ∧ t.run = .halted

/-- The run never leaves RUNNING: a hang, with no end (R245). -/
def NeverEnds (s : State) : Prop := ∀ n, ∃ t, RunsTo n s t ∧ t.run = .running

/-- The bytes of the instruction lie in memory at PC, PC+1 and PC+2 (R72). -/
def StoredAtPc (i : Instr) (s : State) : Prop :=
  ∀ k (h : k < (encode i).length), s.pc.toNat + k < 256 ∧ s.mem.read (s.pc.toNat + k) = (encode i)[k]

/-- The encoding of an instruction, by mnemonic and so under any opcode map (R71, R72, R82): the opcode byte of `o`, then
these operand bytes. The opcode bytes themselves are in Obligations.TableOpcodesAreLegalMap. -/
def EncodedAs (i : Instr) (o : Op) (operands : List Byte) : Prop :=
  ∀ m : OpcodeMap, encodeWith m i = m o :: operands

/-- The common fault of an instruction of `width` bytes, under any legal opcode map (R82): fetched where one of its
bytes would lie at 256 or above, it raises BOUNDS_OPERAND with 256 (R103, R204). Which bytes are read is the spec's
decision D6 (notes/assumptions/11.md). -/
def OperandFetchChecked (o : Op) (width : Nat) : Prop :=
  ∀ m : OpcodeMap, m.legal = true → ∀ s : State, s.run = .running → s.pc.toNat < 256 →
    s.mem.read s.pc.toNat = m o → 256 < s.pc.toNat + width →
    stepWith m s = .next { s with run := .faulted, fault := { cause := .boundsOperand, info := 256 } }

/-- An instruction of one byte has no common fault but those of fetch and decode: under any legal opcode map (R82), fetched
anywhere in 0 to 255, it executes. -/
def RunsWhereFetched (i : Instr) (o : Op) : Prop :=
  ∀ m : OpcodeMap, m.legal = true → ∀ s : State, s.run = .running → s.pc.toNat < 256 →
    s.mem.read s.pc.toNat = m o → stepWith m s = exec i s

/-- The rule of a two-register ALU instruction that always has a result: its encoding (format FRR), the common faults
(operand bytes, then rA, then rB), and its effect, `result a b v` saying which byte `v` is written to rA; nothing else
changes but PC, by the width 3. The order of the checks is the spec's decision D8 (notes/assumptions/14.md). -/
def BinaryAluRule (mk : Byte → Byte → Instr) (o : Op) (result : Byte → Byte → Byte → Prop) : Prop :=
  OperandFetchChecked o 3 ∧
  ∀ (s : State) (ra rb : Byte),
    EncodedAs (mk ra rb) o [ra, rb] ∧
    (8 ≤ ra.toNat → ExecFaults (mk ra rb) s .boundsRegister ra.toNat) ∧
    (ra.toNat < 8 → 8 ≤ rb.toNat → ExecFaults (mk ra rb) s .boundsRegister rb.toNat) ∧
    ∀ (ha : ra.toNat < 8) (hb : rb.toNat < 8), ∃ v,
      result s.regs[ra.toNat] s.regs[rb.toNat] v ∧
      exec (mk ra rb) s = .next { s with regs := s.regs.set ra.toNat v, pc := s.pc + 3 }

/-- The rule of a conditional jump: its encoding (format FR), the common faults, whether or not it is taken, and its
effect: PC becomes the value of rA where `taken` holds of FL, else PC + 2; nothing else changes. -/
def BranchRule (mk : Byte → Instr) (o : Op) (taken : FlagsWord → Prop) : Prop :=
  OperandFetchChecked o 2 ∧
  ∀ (s : State) (ra : Byte),
    EncodedAs (mk ra) o [ra] ∧
    (8 ≤ ra.toNat → ExecFaults (mk ra) s .boundsRegister ra.toNat) ∧
    ∀ ha : ra.toNat < 8,
      (taken s.fl → exec (mk ra) s = .next { s with pc := BitVec.ofNat 9 (s.regs[ra.toNat]).toNat }) ∧
      (¬ taken s.fl → exec (mk ra) s = .next { s with pc := s.pc + 2 })

/-- The frame of an instruction that stores nothing and, of the registers, changes at most those whose number is in
`dests`: with `flags` false FL is kept too, and with `output` false the output stream. The run state and the fault
record change only by a fault, and a fault changes nothing else. -/
def StoresNothingFrame (i : Instr) (dests : List Nat) (flags output : Bool) : Prop :=
  ∀ s t, exec i s = .next t →
    (∀ j (h : j < 8), j ∉ dests → t.regs[j] = s.regs[j]) ∧
    (flags = false → t.fl = s.fl) ∧
    (output = false → t.output = s.output) ∧
    (∀ a, t.mem.read a = s.mem.read a) ∧
    ((t.run = s.run ∧ t.fault = s.fault) ∨ (∃ f, t = { s with run := .faulted, fault := f }))

end Sys2Proof.Machine
end

