-- ==== Sys2Proof/Certificates/Slice0/Obligations.lean ====
section
/-! DEFINITION. The statements for the provers: each formalises rules of spec/ about what an instruction or the machine
does. The shapes several of them share (BinaryAluRule, BranchRule, StoresNothingFrame, ...) stand in Safety.lean. -/

open Sys2Proof Sys2Proof.Machine

/-! ### Encoding -/

/-- R70 to R72, R82, R85: under EVERY legal opcode map, decoding the bytes of an instruction, whatever its operand bytes
and whatever follows, gives the instruction and what follows. -/
def Obligations.DecodeOfEncodeGivesInstruction : Prop :=
  ∀ (m : OpcodeMap), m.legal = true → ∀ (i : Instr) (rest : List Byte),
    decodeWith m (encodeWith m i ++ rest) = .ok (i, rest)

/-- R70 to R72, R85: bytes that decode are the instruction's encoding followed by the rest, under any opcode map: no
second encoding of an instruction exists. -/
def Obligations.EncodeOfDecodeGivesBytes : Prop :=
  ∀ (m : OpcodeMap) (bytes rest : List Byte) (i : Instr),
    decodeWith m bytes = .ok (i, rest) → encodeWith m i ++ rest = bytes

/-- R75, R80 to R82: the opcode bytes of the table, and that they make a legal opcode map. All but HLT, LDI and PRN are
general knowledge that the spec marks as not in its source (notes/assumptions/1.md); the statements about instructions
below are by mnemonic and do not rest on them. -/
def Obligations.TableOpcodesAreLegalMap : Prop :=
  opcodeMap.legal = true ∧
  Op.all.map opcodeMap = [0x01, 0x82, 0x47, 0xA0, 0xA1, 0xA2, 0xA4, 0xA8, 0xAA, 0xAB, 0x69, 0xAC, 0xAD, 0xA7, 0x54, 0x55,
    0x56, 0x45, 0x46, 0x50, 0x11] ∧
  Op.all = [.hlt, .ldi, .prn, .add, .sub, .mul, .mod, .and, .or, .xor, .not, .shl, .shr, .cmp, .jmp, .jeq, .jne, .push,
    .pop, .call, .ret]

/-- R86, R87: 235 byte values are unrecognized, and stepping on any byte outside the 21 opcodes raises DECODE with the
byte; the 13 historical opcodes this hardware does not have are among them. The byte values rest on the opcode map
that the spec takes from general knowledge (notes/assumptions/1.md). That they fault is decision D3
(notes/assumptions/19.md). -/
def Obligations.UnlistedOpcodeBytesFault : Prop :=
  ((List.range 256).filter fun n => (opFor opcodeMap (BitVec.ofNat 8 n)).isNone).length = 235 ∧
  (∀ b ∈ ([0x00, 0x13, 0x48, 0x52, 0x57, 0x58, 0x59, 0x5A, 0x65, 0x66, 0x83, 0x84, 0xA3] : List Byte),
    opFor opcodeMap b = none) ∧
  ∀ s : State, s.run = .running → s.pc.toNat < 256 →
    s.mem.read s.pc.toNat ∉ ([0x01, 0x82, 0x47, 0xA0, 0xA1, 0xA2, 0xA4, 0xA8, 0xAA, 0xAB, 0x69, 0xAC, 0xAD, 0xA7, 0x54,
      0x55, 0x56, 0x45, 0x46, 0x50, 0x11] : List Byte) →
    StepFaults s .decode (s.mem.read s.pc.toNat).toNat

/-- R81 and the encodings of R80: a few words written out bit by bit decode to the instructions they stand for. The
words of ADD, CMP, JEQ, CALL and RET rest on notes/assumptions/1.md. -/
def Obligations.WrittenOutWordsDecode : Prop :=
  decode [0b10000010, 0b00000000, 0b00001000] = .ok (.ldi 0 8, []) ∧
  decode [0b01000111, 0b00000000, 0b00000001] = .ok (.prn 0, [0b00000001]) ∧
  decode [0b00000001] = .ok (.hlt, []) ∧
  decode [0b10100000, 0b00000000, 0b00000001] = .ok (.add 0 1, []) ∧
  decode [0b10100111, 0b00000010, 0b00000011] = .ok (.cmp 2 3, []) ∧
  decode [0b01010101, 0b00000010] = .ok (.jeq 2, []) ∧
  decode [0b01010000, 0b00000001] = .ok (.call 1, []) ∧
  decode [0b00010001] = .ok (.ret, [])

/-! ### The engine -/

/-- R100: when the bytes at PC decode to an instruction, the step at a running state is exec of it there. Nothing is
added around exec: the meaning itself moves PC. -/
def Obligations.StepRunsDecodedInstruction : Prop :=
  ∀ (s : State) (i : Instr) (rest : List Byte), s.run = .running →
    decode s.codeBytes = .ok (i, rest) → step s = exec i s

/-- R72, R100: an instruction whose encoding lies in memory at PC is the one the step runs. -/
def Obligations.StoredInstructionRuns : Prop :=
  ∀ (s : State) (i : Instr), s.run = .running → StoredAtPc i s → step s = exec i s

/-- R103: the fetch depends on no byte outside the instruction. Decision D6 (notes/assumptions/11.md). -/
def Obligations.FetchReadsOnlyInstructionBytes : Prop :=
  ∀ (s s' : State) (o : Op), s'.pc = s.pc → opFor opcodeMap (s.mem.read s.pc.toNat) = some o →
    (∀ k < o.width, s'.byteAt? (s.pc.toNat + k) = s.byteAt? (s.pc.toNat + k)) →
    fetchWith opcodeMap s' = fetchWith opcodeMap s

/-- R211, with R101 to R105: the one fault a step reports is the first in the order fetch, decode, operand bytes,
register operands (rA before rB), the instruction's own check; a step with none of the first four runs the rule. The
clauses are the rules' with the spec's decisions in them: the order D8 (notes/assumptions/14.md), BOUNDS_FETCH and
DECODE D5 and D3 (19.md), the operand bytes read D6 (11.md), the stack and return address checks D13 and D14 (13.md),
and for POP R7, that the loaded byte is the SP to increment, D15 (R172, R181; 9.md, U11). -/
def Obligations.StepReportsFirstFault : Prop :=
  ∀ s : State, s.run = .running →
    let pc := s.pc.toNat
    let op1 := s.mem.read (pc + 1)
    let op2 := s.mem.read (pc + 2)
    (256 ≤ pc → StepFaults s .boundsFetch pc) ∧
    (pc < 256 → opFor opcodeMap (s.mem.read pc) = none → StepFaults s .decode (s.mem.read pc).toNat) ∧
    (∀ o, pc < 256 → opFor opcodeMap (s.mem.read pc) = some o → 256 < pc + o.width →
      StepFaults s .boundsOperand 256) ∧
    (∀ o b, opFor opcodeMap (s.mem.read pc) = some o → pc + o.width ≤ 256 →
      (o.format.regOperands op1 op2).find? (fun x => decide (8 ≤ x.toNat)) = some b →
      StepFaults s .boundsRegister b.toNat) ∧
    (∀ o, opFor opcodeMap (s.mem.read pc) = some o → pc + o.width ≤ 256 →
      (∀ x ∈ o.format.regOperands op1 op2, x.toNat < 8) →
      step s = exec (o.build op1 op2) s ∧
      (∀ h : op2.toNat < 8, o = .mod → s.regs[op2.toNat] = 0 → StepFaults s .arithModZero op2.toNat) ∧
      ((o = .push ∨ o = .call) → s.regs[7] = 0 → StepFaults s .boundsStack 0) ∧
      (o = .call → s.regs[7] ≠ 0 → pc = 254 → StepFaults s .boundsRetAddr 256) ∧
      (o = .ret → s.regs[7] = 255 → StepFaults s .boundsStack 255) ∧
      (o = .pop → op1.toNat ≠ 7 → s.regs[7] = 255 → StepFaults s .boundsStack 255) ∧
      (o = .pop → op1.toNat = 7 → s.mem.read (s.regs[7]).toNat = 255 → StepFaults s .boundsStack 255))

/-- R105, R205: for every instruction, the first register operand that is 8 or more raises BOUNDS_REGISTER with the
byte, and an instruction whose register operands are all below 8 does not raise it, whatever its immediate. The whole
byte as index and the order are the spec's decisions D7 and D8 (notes/assumptions/14.md). -/
def Obligations.RegisterOperandsAreChecked : Prop :=
  (∀ (i : Instr) (s : State) (b : Byte), i.regOperands.find? (fun x => decide (8 ≤ x.toNat)) = some b →
    ExecFaults i s .boundsRegister b.toNat) ∧
  (∀ (i : Instr) (s : State) (info : Nat), s.run = .running → i.wellFormed = true →
    ¬ ExecFaults i s .boundsRegister info) ∧
  (∀ ra imm : Byte, Instr.regOperands (.ldi ra imm) = [ra])

/-- R107: HALTED and FAULTED are terminal: no step is taken from them, and no run leaves them. That the answer there
is Host's fault outcome is the model's choice (notes/assumptions/4.md). -/
def Obligations.StoppedStatesAreTerminal : Prop :=
  ∀ s : State, s.run ≠ .running →
    (s.run = .halted → step s = .fault .halted) ∧
    (s.run = .faulted → step s = .fault (.faulted s.fault)) ∧
    ∀ n t, RunsTo n s t → n = 0 ∧ t = s

/-- R106: a step from RUNNING has exactly one of three outcomes: a next state still RUNNING, a next state HALTED (HLT
only), or a fault, which leaves the state before the step with run = FAULTED and the fault record set. That a faulting
step answers a next state is the model's reading of (c) (notes/assumptions/4.md). -/
def Obligations.StepHasThreeOutcomes : Prop :=
  ∀ s : State, s.run = .running → ∃ t, step s = .next t ∧
    (t.run = .running ∨
     (t.run = .halted ∧ s.pc.toNat < 256 ∧ s.mem.read s.pc.toNat = 0x01) ∨
     (∃ f : FaultRecord, f.cause ≠ .none ∧ t = { s with run := .faulted, fault := f }))

/-- R202, R210: faults are precise: a step that ends FAULTED left PC, the registers, FL, memory and the output stream
as they were, and its cause is neither NONE nor ARITH_UNSUPPORTED. The spec's decision D9 (notes/assumptions/10.md).
-/
def Obligations.FaultsArePrecise : Prop :=
  ∀ s t : State, s.run = .running → step s = .next t → t.run = .faulted →
    t.pc = s.pc ∧ t.regs = s.regs ∧ t.fl = s.fl ∧ t.mem = s.mem ∧ t.output = s.output ∧
    t.fault.cause ≠ .none ∧ t.fault.cause ≠ .arithUnsupported

/-! ### Reset, load, invariant -/

/-- R230: every field of the state right after reset, FL under the parameter FL_INIT, whose default is 0b000. The FL
and R7 values are the spec's decisions D11 and D12 (notes/assumptions/2.md, 20.md). -/
def Obligations.ResetState : Prop :=
  (∀ flInit : FlagsWord,
    let s := State.resetWith flInit
    (∀ a, s.mem.read a = 0) ∧ (∀ r (h : r < 7), s.regs[r] = 0) ∧ s.regs[7] = 0xF4 ∧ s.pc = 0 ∧ s.fl = flInit ∧
    s.run = .running ∧ s.fault = { cause := .none, info := 0 } ∧ s.fault.cause.code = 0 ∧ s.output = []) ∧
  State.reset = State.resetWith 0b000

/-- R240: the load writes the program's bytes at addresses 0 upward, every other byte keeps 0, nothing else of the
reset state changes, and a program of more than 256 bytes does not start. The spec's decision D18
(notes/assumptions/7.md). -/
def Obligations.ProgramLoad : Prop :=
  ∀ (flInit : FlagsWord) (program : List Byte),
    (256 < program.length → State.boot flInit program = none) ∧
    (program.length ≤ 256 → ∃ s, State.boot flInit program = some s ∧
      (∀ k (h : k < program.length), s.mem.read k = program[k]) ∧
      (∀ a, program.length ≤ a → s.mem.read a = 0) ∧
      s = { State.resetWith flInit with mem := s.mem })

/-- The invariant (R28, R35, R38, R201) holds right after reset. The canonical form of memory is the model's own
(notes/assumptions/16.md). The bounds of PC and the fault record's values are the spec's decisions D4, D5 and D20
(notes/assumptions/19.md, 22.md). -/
def Obligations.ResetMeetsInvariant : Prop :=
  ∀ flInit : FlagsWord, (State.resetWith flInit).Inv

/-- The invariant (R28, R35, R38, R201) holds once a program is loaded, whatever its bytes. The canonical form of
memory is the model's own (notes/assumptions/16.md). The bounds of PC and the fault record's values are the spec's
decisions D4, D5 and D20 (notes/assumptions/19.md, 22.md). -/
def Obligations.BootMeetsInvariant : Prop :=
  ∀ (flInit : FlagsWord) (program : List Byte) (s : State), State.boot flInit program = some s → s.Inv

/-- Every step keeps the invariant: memory stays canonical and inside 0 to 255, PC stays in 0 to 256, and the fault
record is (NONE, 0) until a fault and then one of the pairs of R201 (R28, R35, R38, R201). The canonical form of
memory is the model's own (notes/assumptions/16.md). The bounds of PC and the fault record's values are the spec's
decisions D4, D5 and D20 (notes/assumptions/19.md, 22.md). -/
def Obligations.StepKeepsInvariant : Prop :=
  ∀ s t : State, s.Inv → step s = .next t → t.Inv

/-! ### Whole-machine rules -/

/-- R28, R104: PC does not wrap: a completed step advances it by the instruction's width exactly, but for jumps, calls
and returns, which set it to a byte value (or, not taken, advance by 2); it never exceeds 256. It rests on the spec's
decisions D4 and D5, that PC is 9 bits and does not wrap (notes/assumptions/19.md), and, for HLT, on D10, that HLT
advances PC by 1 (notes/assumptions/3.md). -/
def Obligations.PcAdvancesByWidthOrToByte : Prop :=
  ∀ (s t : State) (o : Op), s.run = .running → step s = .next t → t.run ≠ .faulted →
    opFor opcodeMap (s.mem.read s.pc.toNat) = some o →
    t.pc.toNat ≤ 256 ∧
    (o ∉ [Op.jmp, .jeq, .jne, .call, .ret] → t.pc.toNat = s.pc.toNat + o.width) ∧
    (o ∈ [Op.jeq, .jne] → t.pc.toNat < 256 ∨ t.pc.toNat = s.pc.toNat + 2) ∧
    (o ∈ [Op.jmp, .call, .ret] → t.pc.toNat < 256)

/-- R31, R123: only CMP writes FL: every other instruction keeps it, and a CMP that completes leaves exactly one of E, G
and L set, whatever FL held before. -/
def Obligations.OnlyCmpWritesFlags : Prop :=
  ∀ (i : Instr) (s t : State), s.run = .running → exec i s = .next t →
    (i.op ≠ .cmp → t.fl = s.fl) ∧
    (i.op = .cmp → t.run ≠ .faulted → t.fl = 0b001 ∨ t.fl = 0b010 ∨ t.fl = 0b100)

/-- R42: the output stream grows only by PRN, which appends the value of its register at the end. Decision D19
(notes/assumptions/8.md). -/
def Obligations.OnlyPrnEmits : Prop :=
  State.reset.output = [] ∧
  ∀ (i : Instr) (s t : State), s.run = .running → exec i s = .next t →
    ((∀ ra, i ≠ .prn ra) → t.output = s.output) ∧
    (∀ ra, i = .prn ra → t.run ≠ .faulted → ∃ h : ra.toNat < 8, t.output = s.output ++ [s.regs[ra.toNat]])

/-- R32: FL.G and FL.L are read by no instruction: changing them (E kept) changes nothing an instruction does; the
changed FL is kept, or replaced by CMP. -/
def Obligations.NoInstructionReadsGOrL : Prop :=
  ∀ (i : Instr) (s : State) (f : FlagsWord), f.getLsbD 0 = s.fl.getLsbD 0 →
    ∃ t, exec i s = .next t ∧
      (exec i { s with fl := f } = .next { t with fl := f } ∨
       (i.op = .cmp ∧ exec i { s with fl := f } = .next t))

/-- R40, R42: the output stream is write-only: what it holds changes nothing an instruction does, and at most one value
is appended. -/
def Obligations.NoInstructionReadsOutput : Prop :=
  ∀ (i : Instr) (s : State) (o : List Byte), ∃ t e, exec i s = .next t ∧ e.length ≤ 1 ∧
    t.output = s.output ++ e ∧ exec i { s with output := o } = .next { t with output := o ++ e }

/-! ### HLT, LDI, PRN -/

/-- R110: HLT halts and advances PC by 1; nothing else changes. The advance by 1 is the spec's decision D10
(notes/assumptions/3.md). -/
def Obligations.HltHaltsAndAdvances : Prop :=
  RunsWhereFetched .hlt .hlt ∧
  EncodedAs .hlt .hlt [] ∧
  ∀ s : State, exec .hlt s = .next { s with run := .halted, pc := s.pc + 1 }

/-- R111: LDI writes its whole immediate byte, whatever it is, to rA. -/
def Obligations.LdiLoadsImmediate : Prop :=
  OperandFetchChecked .ldi 3 ∧
  ∀ (s : State) (ra imm : Byte),
    EncodedAs (.ldi ra imm) .ldi [ra, imm] ∧
    (8 ≤ ra.toNat → ExecFaults (.ldi ra imm) s .boundsRegister ra.toNat) ∧
    ∀ ha : ra.toNat < 8,
      exec (.ldi ra imm) s = .next { s with regs := s.regs.set ra.toNat imm, pc := s.pc + 3 }

/-- R112: PRN appends the value of rA to the output stream. -/
def Obligations.PrnEmitsRegister : Prop :=
  OperandFetchChecked .prn 2 ∧
  ∀ (s : State) (ra : Byte),
    EncodedAs (.prn ra) .prn [ra] ∧
    (8 ≤ ra.toNat → ExecFaults (.prn ra) s .boundsRegister ra.toNat) ∧
    ∀ ha : ra.toNat < 8,
      exec (.prn ra) s = .next { s with output := s.output ++ [s.regs[ra.toNat]], pc := s.pc + 2 }

/-! ### ALU -/

/-- R125: ADD writes (a + b) mod 256 to rA. -/
def Obligations.AddWritesSum : Prop :=
  BinaryAluRule .add .add fun a b v => v.toNat = (a.toNat + b.toNat) % 256

/-- R126: SUB writes (a + 256 - b) mod 256 to rA. -/
def Obligations.SubWritesDifference : Prop :=
  BinaryAluRule .sub .sub fun a b v => v.toNat = (a.toNat + 256 - b.toNat) % 256

/-- R127: MUL writes (a * b) mod 256 to rA. -/
def Obligations.MulWritesLowProduct : Prop :=
  BinaryAluRule .mul .mul fun a b v => v.toNat = (a.toNat * b.toNat) % 256

/-- R128, R209: MOD by a register holding 0 raises ARITH_MOD_ZERO with rB's index; otherwise it writes the unsigned
remainder, below b, to rA. That the operands are unsigned is the spec's decision D16 (R121, notes/assumptions/15.md).
-/
def Obligations.ModWritesRemainderOrFaults : Prop :=
  OperandFetchChecked .mod 3 ∧
  ∀ (s : State) (ra rb : Byte),
    EncodedAs (.mod ra rb) .mod [ra, rb] ∧
    (8 ≤ ra.toNat → ExecFaults (.mod ra rb) s .boundsRegister ra.toNat) ∧
    (ra.toNat < 8 → 8 ≤ rb.toNat → ExecFaults (.mod ra rb) s .boundsRegister rb.toNat) ∧
    ∀ (ha : ra.toNat < 8) (hb : rb.toNat < 8),
      (s.regs[rb.toNat] = 0 → ExecFaults (.mod ra rb) s .arithModZero rb.toNat) ∧
      (s.regs[rb.toNat] ≠ 0 → ∃ v : Byte,
        v.toNat = s.regs[ra.toNat].toNat % s.regs[rb.toNat].toNat ∧ v.toNat < s.regs[rb.toNat].toNat ∧
        exec (.mod ra rb) s = .next { s with regs := s.regs.set ra.toNat v, pc := s.pc + 3 })

/-- R129: bit i of AND's result is a[i] AND b[i], i = 0..7. -/
def Obligations.AndWritesBitwiseAnd : Prop :=
  BinaryAluRule .and .and fun a b v => ∀ i < 8, v.getLsbD i = (a.getLsbD i && b.getLsbD i)

/-- R130: bit i of OR's result is a[i] OR b[i]. -/
def Obligations.OrWritesBitwiseOr : Prop :=
  BinaryAluRule .or .or fun a b v => ∀ i < 8, v.getLsbD i = (a.getLsbD i || b.getLsbD i)

/-- R131: bit i of XOR's result is a[i] XOR b[i]. -/
def Obligations.XorWritesBitwiseXor : Prop :=
  BinaryAluRule .xor .xor fun a b v => ∀ i < 8, v.getLsbD i = (a.getLsbD i != b.getLsbD i)

/-- R132: NOT writes 255 - a to rA. -/
def Obligations.NotWritesComplement : Prop :=
  OperandFetchChecked .not 2 ∧
  ∀ (s : State) (ra : Byte),
    EncodedAs (.not ra) .not [ra] ∧
    (8 ≤ ra.toNat → ExecFaults (.not ra) s .boundsRegister ra.toNat) ∧
    ∀ ha : ra.toNat < 8, ∃ v : Byte,
      v.toNat = 255 - s.regs[ra.toNat].toNat ∧
      exec (.not ra) s = .next { s with regs := s.regs.set ra.toNat v, pc := s.pc + 2 }

/-- R133: SHL writes (a * 2^b) mod 256 to rA, b the whole byte; a shift of 8 or more gives 0. Decision D16
(notes/assumptions/15.md). -/
def Obligations.ShlWritesShiftedProduct : Prop :=
  BinaryAluRule .shl .shl fun a b v =>
    v.toNat = (a.toNat * 2 ^ b.toNat) % 256 ∧ (8 ≤ b.toNat → v = 0)

/-- R134: SHR writes floor(a / 2^b) to rA, b the whole byte; a shift of 8 or more gives 0. Decision D16
(notes/assumptions/15.md). -/
def Obligations.ShrWritesFloorQuotient : Prop :=
  BinaryAluRule .shr .shr fun a b v =>
    v.toNat = a.toNat / 2 ^ b.toNat ∧ (8 ≤ b.toNat → v = 0)

/-- R150: CMP sets exactly one of E, G and L by unsigned comparison and changes nothing else but PC; swapping unequal
operands swaps G and L. Unsigned by the spec's decision D16 (notes/assumptions/15.md). -/
def Obligations.CmpSetsExactlyOneFlag : Prop :=
  OperandFetchChecked .cmp 3 ∧
  (∀ (s : State) (ra rb : Byte),
    EncodedAs (.cmp ra rb) .cmp [ra, rb] ∧
    (8 ≤ ra.toNat → ExecFaults (.cmp ra rb) s .boundsRegister ra.toNat) ∧
    (ra.toNat < 8 → 8 ≤ rb.toNat → ExecFaults (.cmp ra rb) s .boundsRegister rb.toNat) ∧
    ∀ (ha : ra.toNat < 8) (hb : rb.toNat < 8), ∃ fl : FlagsWord,
      exec (.cmp ra rb) s = .next { s with fl := fl, pc := s.pc + 3 } ∧
      (s.regs[ra.toNat] = s.regs[rb.toNat] → fl = 0b001) ∧
      (s.regs[ra.toNat].toNat > s.regs[rb.toNat].toNat → fl = 0b010) ∧
      (s.regs[ra.toNat].toNat < s.regs[rb.toNat].toNat → fl = 0b100)) ∧
  (∀ (s t u : State) (ra rb : Byte) (ha : ra.toNat < 8) (hb : rb.toNat < 8),
    s.regs[ra.toNat] ≠ s.regs[rb.toNat] → exec (.cmp ra rb) s = .next t → exec (.cmp rb ra) s = .next u →
    (t.fl = 0b010 ∧ u.fl = 0b100) ∨ (t.fl = 0b100 ∧ u.fl = 0b010))

/-! ### Branches -/

/-- R161: JMP goes to the address in rA unconditionally; FL is not read. -/
def Obligations.JmpGoesToRegister : Prop :=
  OperandFetchChecked .jmp 2 ∧
  ∀ (s : State) (ra : Byte),
    EncodedAs (.jmp ra) .jmp [ra] ∧
    (8 ≤ ra.toNat → ExecFaults (.jmp ra) s .boundsRegister ra.toNat) ∧
    ∀ ha : ra.toNat < 8, exec (.jmp ra) s = .next { s with pc := BitVec.ofNat 9 (s.regs[ra.toNat]).toNat }

/-- R162: JEQ goes to the address in rA if FL.E is 1, else advances by 2. -/
def Obligations.JeqJumpsWhenEqual : Prop :=
  BranchRule .jeq .jeq fun fl => fl.getLsbD 0 = true

/-- R163: JNE goes to the address in rA if FL.E is 0, else advances by 2. -/
def Obligations.JneJumpsWhenNotEqual : Prop :=
  BranchRule .jne .jne fun fl => fl.getLsbD 0 = false

/-! ### Stack -/

/-- R180: PUSH decrements SP and stores x[rA], read after the decrement, at the new SP; at SP = 0 it raises
BOUNDS_STACK. PUSH R7 and the check are the spec's decisions D15 and D13 (notes/assumptions/9.md, 13.md). -/
def Obligations.PushStoresBelowSp : Prop :=
  OperandFetchChecked .push 2 ∧
  ∀ (s : State) (ra : Byte),
    EncodedAs (.push ra) .push [ra] ∧
    (8 ≤ ra.toNat → ExecFaults (.push ra) s .boundsRegister ra.toNat) ∧
    ∀ ha : ra.toNat < 8,
      (s.regs[7] = 0 → ExecFaults (.push ra) s .boundsStack 0) ∧
      (s.regs[7] ≠ 0 → ∃ sp : Byte, sp.toNat + 1 = s.regs[7].toNat ∧
        exec (.push ra) s = .next { s with
          regs := s.regs.set 7 sp
          mem := s.mem.write sp.toNat (if ra.toNat = 7 then sp else s.regs[ra.toNat])
          pc := s.pc + 2 })

/-- R181: POP loads rA from the byte at SP and then increments R7, so POP R7 leaves the byte plus 1; it raises
BOUNDS_STACK when the SP to increment is 255, and then the load is discarded too. POP R7 and the check are the spec's
decisions D15 and D13 (notes/assumptions/9.md, 13.md). -/
def Obligations.PopLoadsFromSp : Prop :=
  OperandFetchChecked .pop 2 ∧
  ∀ (s : State) (ra : Byte),
    EncodedAs (.pop ra) .pop [ra] ∧
    (8 ≤ ra.toNat → ExecFaults (.pop ra) s .boundsRegister ra.toNat) ∧
    ∀ ha : ra.toNat < 8,
      let v := s.mem.read s.regs[7].toNat
      (ra.toNat ≠ 7 → s.regs[7] = 255 → ExecFaults (.pop ra) s .boundsStack 255) ∧
      (ra.toNat ≠ 7 → s.regs[7] ≠ 255 → ∃ sp : Byte, sp.toNat = s.regs[7].toNat + 1 ∧
        exec (.pop ra) s = .next { s with regs := (s.regs.set ra.toNat v).set 7 sp, pc := s.pc + 2 }) ∧
      (ra.toNat = 7 → v = 255 → ExecFaults (.pop ra) s .boundsStack 255) ∧
      (ra.toNat = 7 → v ≠ 255 → ∃ sp : Byte, sp.toNat = v.toNat + 1 ∧
        exec (.pop ra) s = .next { s with regs := s.regs.set 7 sp, pc := s.pc + 2 })

/-- R182: CALL decrements SP, stores pc + 2 there and jumps to x[rA], read after the decrement; at SP = 0 it raises
BOUNDS_STACK and else, where pc + 2 does not fit in a byte, BOUNDS_RETADDR. CALL R7 and the checks are the spec's
decisions D15, D13 and D14 (notes/assumptions/9.md, 13.md). -/
def Obligations.CallPushesReturnAddress : Prop :=
  OperandFetchChecked .call 2 ∧
  ∀ (s : State) (ra : Byte),
    EncodedAs (.call ra) .call [ra] ∧
    (8 ≤ ra.toNat → ExecFaults (.call ra) s .boundsRegister ra.toNat) ∧
    ∀ ha : ra.toNat < 8,
      (s.regs[7] = 0 → ExecFaults (.call ra) s .boundsStack 0) ∧
      (s.regs[7] ≠ 0 → 256 ≤ s.pc.toNat + 2 → ExecFaults (.call ra) s .boundsRetAddr (s.pc.toNat + 2)) ∧
      (s.regs[7] ≠ 0 → s.pc.toNat + 2 < 256 → ∃ sp ret : Byte,
        sp.toNat + 1 = s.regs[7].toNat ∧ ret.toNat = s.pc.toNat + 2 ∧
        exec (.call ra) s = .next { s with
          regs := s.regs.set 7 sp
          mem := s.mem.write sp.toNat ret
          pc := BitVec.ofNat 9 (if ra.toNat = 7 then sp.toNat else s.regs[ra.toNat].toNat) })

/-- R183: RET goes to the byte at SP and increments SP; at SP = 255 it raises BOUNDS_STACK. The check is the spec's
decision D13 (notes/assumptions/13.md). -/
def Obligations.RetPopsReturnAddress : Prop :=
  RunsWhereFetched .ret .ret ∧
  EncodedAs .ret .ret [] ∧
  ∀ s : State,
    (s.regs[7] = 255 → ExecFaults .ret s .boundsStack 255) ∧
    (s.regs[7] ≠ 255 → ∃ sp : Byte, sp.toNat = s.regs[7].toNat + 1 ∧
      exec .ret s = .next { s with
        regs := s.regs.set 7 sp
        pc := BitVec.ofNat 9 (s.mem.read s.regs[7].toNat).toNat })

/-! ### Frames -/

/-- The frame of LDI, ADD, SUB, MUL, MOD, AND, OR, XOR, NOT, SHL and SHR (R54, R111, R120, R123 to R134): only rA and
PC change. That a fault changes nothing else is the spec's decision D9 (notes/assumptions/10.md). -/
def Obligations.RegisterWritersFrame : Prop :=
  ∀ ra rb : Byte, ∀ i ∈ [Instr.ldi ra rb, .add ra rb, .sub ra rb, .mul ra rb, .mod ra rb, .and ra rb, .or ra rb,
      .xor ra rb, .not ra, .shl ra rb, .shr ra rb],
    StoresNothingFrame i [ra.toNat] false false

/-- The frame of CMP (only FL and PC change), of PRN (only the output stream and PC) and of JMP, JEQ and JNE (only PC)
(R54, R112, R150, R161 to R163). That a fault changes nothing else is the spec's decision D9
(notes/assumptions/10.md). -/
def Obligations.CompareBranchPrintFrame : Prop :=
  ∀ ra rb : Byte,
    StoresNothingFrame (.cmp ra rb) [] true false ∧
    StoresNothingFrame (.prn ra) [] false true ∧
    ∀ i ∈ [Instr.jmp ra, .jeq ra, .jne ra], StoresNothingFrame i [] false false

/-- The frame of HLT (R110): registers, FL, memory, the output stream and the fault record are unchanged. -/
def Obligations.HltFrame : Prop :=
  ∀ s t : State, exec .hlt s = .next t →
    t.regs = s.regs ∧ t.fl = s.fl ∧ t.output = s.output ∧ t.fault = s.fault ∧
    ∀ a, t.mem.read a = s.mem.read a

/-- The frame of POP and RET, which store nothing (R54, R181, R183): POP changes rA, R7 and PC, RET changes R7 and PC.
That a fault changes nothing else is the spec's decision D9 (notes/assumptions/10.md). -/
def Obligations.PopRetFrame : Prop :=
  (∀ ra : Byte, StoresNothingFrame (.pop ra) [ra.toNat, 7] false false) ∧
  StoresNothingFrame .ret [7] false false

/-- The frame of PUSH and CALL (R54, R180, R182): of the registers only R7 changes, and of memory at most the byte at
the new SP, which is R7 - 1; FL and the output stream are kept, and the run state and the fault record change only by
a fault, which changes nothing else. That a fault changes nothing else is the spec's decision D9
(notes/assumptions/10.md). -/
def Obligations.PushCallFrame : Prop :=
  ∀ (ra : Byte), ∀ i ∈ [Instr.push ra, .call ra], ∀ s t : State, exec i s = .next t →
    (∀ j (h : j < 8), j ≠ 7 → t.regs[j] = s.regs[j]) ∧ t.fl = s.fl ∧ t.output = s.output ∧
    (∀ a, a ≠ (s.sp - 1).toNat → t.mem.read a = s.mem.read a) ∧
    ((t.run = s.run ∧ t.fault = s.fault) ∨ (∃ f, t = { s with run := .faulted, fault := f }))

/-! ### Memory and compositions -/

/-- R59: after any sequence of writes, a read returns the value of the most recent write to the address, or what the
memory held before if there is none; memory stays canonical. The canonical form is the model's own
(notes/assumptions/16.md). Decision D25 (notes/assumptions/21.md). -/
def Obligations.ReadReturnsMostRecentWrite : Prop :=
  ∀ (m : Memory) (writes : List (Byte × Byte)) (a : Byte), m.wf = true →
    let m' := writes.foldl (fun m w => m.write w.1.toNat w.2) m
    m'.wf = true ∧
    m'.read a.toNat = ((writes.reverse.find? fun w => decide (w.1 = a)).map Prod.snd).getD (m.read a.toNat)

/-- R61: a fetch sees every earlier store: after a PUSH that completes, a step at the address it wrote fetches the
byte it wrote: an unrecognized byte faults DECODE, and the opcode of a one-byte instruction runs it. Decision D25
(notes/assumptions/21.md). -/
def Obligations.FetchSeesPushedByte : Prop :=
  ∀ (s : State) (ra : Byte) (ha : ra.toNat < 8), s.mem.wf = true → s.run = .running → s.regs[7] ≠ 0 → ra.toNat ≠ 7 →
    ∃ t, exec (.push ra) s = .next t ∧
      let u : State := { t with pc := t.sp.setWidth 9 }
      (opFor opcodeMap s.regs[ra.toNat] = none → StepFaults u .decode s.regs[ra.toNat].toNat) ∧
      (∀ o, opFor opcodeMap s.regs[ra.toNat] = some o → o.width = 1 → step u = exec (o.build 0 0) u)

/-- R171, R180, R181: PUSH rA then POP rB (neither of them R7) copies rA to rB and leaves SP unchanged net; with rB = rA
the register is restored. -/
def Obligations.PushThenPopRestores : Prop :=
  ∀ (s : State) (ra rb : Byte) (ha : ra.toNat < 7) (hb : rb.toNat < 7), s.mem.wf = true → s.regs[7] ≠ 0 →
    ∃ t, exec (.push ra) s = .next t ∧
      exec (.pop rb) t = .next { s with
        regs := s.regs.set rb.toNat s.regs[ra.toNat]
        mem := t.mem
        pc := s.pc + 2 + 2 }

/-- R182, R183: CALL then RET returns to the instruction after the CALL with SP and every register as before. -/
def Obligations.CallThenRetReturns : Prop :=
  ∀ (s : State) (ra : Byte), ra.toNat < 8 → s.mem.wf = true → s.regs[7] ≠ 0 → s.pc.toNat + 2 < 256 →
    ∃ t, exec (.call ra) s = .next t ∧ exec .ret t = .next { s with mem := t.mem, pc := s.pc + 2 }

/-- R161, R245: a JMP to its own address never ends: every step leaves the state as it is. Decision D27
(notes/assumptions/23.md). -/
def Obligations.JumpToSelfNeverEnds : Prop :=
  ∀ (s : State) (ra : Byte) (ha : ra.toNat < 8), s.run = .running → StoredAtPc (.jmp ra) s →
    s.regs[ra.toNat].toNat = s.pc.toNat → NeverEnds s ∧ ∀ n, RunsTo n s s

/-- R106, R107, R245: a run that ends has one end: the same number of steps and the same final state. Decision D27
(notes/assumptions/23.md). -/
def Obligations.EndedRunHasOneResult : Prop :=
  ∀ (s t u : State) (n m : Nat), EndsIn n s t → EndsIn m s u → n = m ∧ t = u

/-- R44, R241: the observation port shows nothing while the core runs, and afterwards PC, the registers, FL and every
memory byte. Decision D21 (notes/assumptions/17.md). -/
def Obligations.ObservationOnlyWhenStopped : Prop :=
  ∀ s : State,
    (s.run = .running → s.observe = none) ∧
    (s.run ≠ .running → ∃ o, s.observe = some o ∧ o.pc = s.pc ∧ o.regs = s.regs ∧ o.fl = s.fl ∧
      o.bytes.length = 256 ∧ ∀ a < 256, o.bytes[a]? = some (s.mem.read a))
end

