-- ==== Sys2Proof/Laws/Decode.lean ====
section
/-! SUPPORT. The decoder and the encoder: the small facts about the opcode table, and everything decoding can do. -/

namespace Sys2Proof

theorem Op.mem_all (o : Op) : o ∈ Op.all := by cases o <;> decide

/-- A legal opcode map is injective (R82). -/
theorem OpcodeMap.legal_injective {m : OpcodeMap} (h : m.legal = true) {a b : Op} (hab : m a = m b) : a = b := by
  simp only [OpcodeMap.legal, Bool.and_eq_true, decide_eq_true_eq] at h
  exact h.1.1.1.1 a (Op.mem_all a) b (Op.mem_all b) hab

/-- The mnemonic found for a byte has that byte as its opcode (R85). -/
theorem opFor_some {m : OpcodeMap} {b : Byte} {o : Op} (h : opFor m b = some o) : m o = b := by
  simpa using List.find?_some h

/-- Under a legal map the opcode of a mnemonic finds it (R85). -/
theorem opFor_opcode {m : OpcodeMap} (h : m.legal = true) (o : Op) : opFor m (m o) = some o := by
  cases hf : opFor m (m o) with
  | none =>
    have := List.find?_eq_none.mp hf o (Op.mem_all o)
    simp at this
  | some o' => rw [OpcodeMap.legal_injective h (opFor_some hf)]

/-- No mnemonic is found exactly when no mnemonic has the byte as its opcode (R86). -/
theorem opFor_eq_none {m : OpcodeMap} {b : Byte} : opFor m b = none ↔ ∀ o, m o ≠ b := by
  constructor
  · intro h o ho
    have := List.find?_eq_none.mp h o (Op.mem_all o)
    simp [ho] at this
  · intro h
    exact List.find?_eq_none.mpr fun o _ => by simpa using h o

/-- A width is 1, 2 or 3 (R70). -/
theorem Op.width_cases (o : Op) : o.width = 1 ∨ o.width = 2 ∨ o.width = 3 := by
  cases o <;> simp [Op.width, Op.format, Format.width]

/-- The operand bytes of an instruction are one fewer than its width (R70). -/
theorem Instr.operands_length (i : Instr) : i.operands.length + 1 = i.op.width := by cases i <;> rfl

/-- A mnemonic makes an instruction of that mnemonic. -/
@[simp] theorem Op.op_build (o : Op) (a b : Byte) : (o.build a b).op = o := by cases o <;> rfl

/-- An instruction is made of its mnemonic and its operand bytes. -/
theorem Instr.build_operands (i : Instr) :
    i.op.build (i.operands.getD 0 0) (i.operands.getD 1 0) = i := by cases i <;> rfl

/-- The register operands of a built instruction are those its format marks (R71, R105). -/
theorem Op.regOperands_build (o : Op) (a b : Byte) :
    (o.build a b).regOperands = o.format.regOperands a b := by cases o <;> rfl

/-- Decoding where there is no opcode byte. -/
theorem decodeFrom_none {m : OpcodeMap} {get : Nat → Option Byte} (h : get 0 = none) :
    decodeFrom m get = .error .noOpcode := by simp [decodeFrom, h]

/-- Decoding an unrecognized opcode byte. -/
theorem decodeFrom_unknown {m : OpcodeMap} {get : Nat → Option Byte} {b : Byte} (h : get 0 = some b)
    (ho : opFor m b = none) : decodeFrom m get = .error (.unknownOpcode b) := by simp [decodeFrom, h, ho]

/-- Decoding a one-byte instruction reads no operand byte. -/
theorem decodeFrom_width_one {m : OpcodeMap} {get : Nat → Option Byte} {b : Byte} {o : Op} (h : get 0 = some b)
    (ho : opFor m b = some o) (hw : o.width = 1) : decodeFrom m get = .ok (o.build 0 0) := by
  simp [decodeFrom, h, ho, hw]

/-- Decoding a two-byte instruction reads its operand byte and no other. -/
theorem decodeFrom_width_two {m : OpcodeMap} {get : Nat → Option Byte} {b : Byte} {o : Op} (h : get 0 = some b)
    (ho : opFor m b = some o) (hw : o.width = 2) :
    decodeFrom m get = match get 1 with
      | none => .error (.missingOperand 1)
      | some a => .ok (o.build a 0) := by
  cases h1 : get 1 <;> simp [decodeFrom, h, ho, hw, h1]

/-- Decoding a three-byte instruction reads its operand bytes in ascending order. -/
theorem decodeFrom_width_three {m : OpcodeMap} {get : Nat → Option Byte} {b : Byte} {o : Op} (h : get 0 = some b)
    (ho : opFor m b = some o) (hw : o.width = 3) :
    decodeFrom m get = match get 1 with
      | none => .error (.missingOperand 1)
      | some a => match get 2 with
        | none => .error (.missingOperand 2)
        | some c => .ok (o.build a c) := by
  cases h1 : get 1 <;> cases h2 : get 2 <;> simp [decodeFrom, h, ho, hw, h1, h2]

/-- What a decoded instruction says of the bytes it was read from. -/
theorem decodeFrom_ok {m : OpcodeMap} {get : Nat → Option Byte} {i : Instr} (h : decodeFrom m get = .ok i) :
    ∃ b, get 0 = some b ∧ opFor m b = some i.op ∧
      ∀ k, k < i.operands.length → get (k + 1) = i.operands[k]? := by
  cases h0 : get 0 with
  | none => rw [decodeFrom_none h0] at h; exact absurd h (by simp)
  | some b =>
    cases ho : opFor m b with
    | none => rw [decodeFrom_unknown h0 ho] at h; exact absurd h (by simp)
    | some o =>
      refine ⟨b, rfl, ?_⟩
      rcases Op.width_cases o with hw | hw | hw
      · rw [decodeFrom_width_one h0 ho hw] at h
        obtain rfl : o.build 0 0 = i := by simpa using h
        have hl := Instr.operands_length (o.build 0 0)
        rw [Op.op_build] at hl
        exact ⟨by simpa using ho, fun k hk => absurd hk (by omega)⟩
      · rw [decodeFrom_width_two h0 ho hw] at h
        cases h1 : get 1 with
        | none => simp [h1] at h
        | some a =>
          obtain rfl : o.build a 0 = i := by simpa [h1] using h
          have hl := Instr.operands_length (o.build a 0)
          rw [Op.op_build] at hl
          refine ⟨by simpa using ho, fun k hk => ?_⟩
          obtain rfl : k = 0 := by omega
          rw [h1]
          cases o <;> first | rfl | simp [Op.width, Op.format, Format.width] at hw
      · rw [decodeFrom_width_three h0 ho hw] at h
        cases h1 : get 1 with
        | none => simp [h1] at h
        | some a =>
          cases h2 : get 2 with
          | none => simp [h1, h2] at h
          | some c =>
            obtain rfl : o.build a c = i := by simpa [h1, h2] using h
            have hl := Instr.operands_length (o.build a c)
            rw [Op.op_build] at hl
            refine ⟨by simpa using ho, fun k hk => ?_⟩
            have hk2 : k = 0 ∨ k = 1 := by omega
            rcases hk2 with rfl | rfl
            · rw [h1]
              cases o <;> first | rfl | simp [Op.width, Op.format, Format.width] at hw
            · rw [h2]
              cases o <;> first | rfl | simp [Op.width, Op.format, Format.width] at hw

end Sys2Proof
end

