-- ==== Sys2Proof/Laws/Flags.lean ====
section
/-! SUPPORT. What CMP writes to FL, by the order of the operands (R150). -/

namespace Sys2Proof.Machine

theorem compareFlags_of_eq {a b : Byte} (h : a.toNat = b.toNat) : compareFlags a b = 0b001 := if_pos h

theorem compareFlags_of_gt {a b : Byte} (h : b.toNat < a.toNat) : compareFlags a b = 0b010 := by
  rw [compareFlags, if_neg (by omega), if_pos h]

theorem compareFlags_of_lt {a b : Byte} (h : a.toNat < b.toNat) : compareFlags a b = 0b100 := by
  rw [compareFlags, if_neg (by omega), if_neg (by omega)]

/-- Exactly one of E, G and L is set after a compare (R31, R150). -/
theorem compareFlags_one_hot (a b : Byte) :
    compareFlags a b = 0b001 ∨ compareFlags a b = 0b010 ∨ compareFlags a b = 0b100 := by
  rcases Nat.lt_trichotomy a.toNat b.toNat with h | h | h
  · exact .inr (.inr (compareFlags_of_lt h))
  · exact .inl (compareFlags_of_eq h)
  · exact .inr (.inl (compareFlags_of_gt h))

end Sys2Proof.Machine
end

