-- ==== Sys2Proof/Laws/State.lean ====
section
/-! SUPPORT. One lemma per field per update, and the register file's read-after-write. -/

namespace Sys2Proof.Machine

section
variable (s : State) (r i : Fin 8) (v addr : Byte) (fl : FlagsWord) (w : PcWord) (c : FaultCause) (n : Nat)

@[simp] theorem State.setReg_pc : (s.setReg r v).pc = s.pc := rfl
@[simp] theorem State.setReg_fl : (s.setReg r v).fl = s.fl := rfl
@[simp] theorem State.setReg_mem : (s.setReg r v).mem = s.mem := rfl
@[simp] theorem State.setReg_run : (s.setReg r v).run = s.run := rfl
@[simp] theorem State.setReg_fault : (s.setReg r v).fault = s.fault := rfl
@[simp] theorem State.setReg_output : (s.setReg r v).output = s.output := rfl
theorem State.setReg_regs : (s.setReg r v).regs = s.regs.set r v := rfl

@[simp] theorem State.setSp_pc : (s.setSp v).pc = s.pc := rfl
@[simp] theorem State.setSp_fl : (s.setSp v).fl = s.fl := rfl
@[simp] theorem State.setSp_mem : (s.setSp v).mem = s.mem := rfl
@[simp] theorem State.setSp_run : (s.setSp v).run = s.run := rfl
@[simp] theorem State.setSp_fault : (s.setSp v).fault = s.fault := rfl
@[simp] theorem State.setSp_output : (s.setSp v).output = s.output := rfl
theorem State.setSp_regs : (s.setSp v).regs = s.regs.set 7 v := rfl

@[simp] theorem State.setPc_regs : (s.setPc v).regs = s.regs := rfl
@[simp] theorem State.setPc_pc : (s.setPc v).pc = v.setWidth 9 := rfl
@[simp] theorem State.setPc_fl : (s.setPc v).fl = s.fl := rfl
@[simp] theorem State.setPc_mem : (s.setPc v).mem = s.mem := rfl
@[simp] theorem State.setPc_run : (s.setPc v).run = s.run := rfl
@[simp] theorem State.setPc_fault : (s.setPc v).fault = s.fault := rfl
@[simp] theorem State.setPc_output : (s.setPc v).output = s.output := rfl

@[simp] theorem State.advance_regs : (s.advance w).regs = s.regs := rfl
@[simp] theorem State.advance_pc : (s.advance w).pc = s.pc + w := rfl
@[simp] theorem State.advance_fl : (s.advance w).fl = s.fl := rfl
@[simp] theorem State.advance_mem : (s.advance w).mem = s.mem := rfl
@[simp] theorem State.advance_run : (s.advance w).run = s.run := rfl
@[simp] theorem State.advance_fault : (s.advance w).fault = s.fault := rfl
@[simp] theorem State.advance_output : (s.advance w).output = s.output := rfl

@[simp] theorem State.setFl_regs : (s.setFl fl).regs = s.regs := rfl
@[simp] theorem State.setFl_pc : (s.setFl fl).pc = s.pc := rfl
@[simp] theorem State.setFl_fl : (s.setFl fl).fl = fl := rfl
@[simp] theorem State.setFl_mem : (s.setFl fl).mem = s.mem := rfl
@[simp] theorem State.setFl_run : (s.setFl fl).run = s.run := rfl
@[simp] theorem State.setFl_fault : (s.setFl fl).fault = s.fault := rfl
@[simp] theorem State.setFl_output : (s.setFl fl).output = s.output := rfl

@[simp] theorem State.memWrite_regs : (s.memWrite addr v).regs = s.regs := rfl
@[simp] theorem State.memWrite_pc : (s.memWrite addr v).pc = s.pc := rfl
@[simp] theorem State.memWrite_fl : (s.memWrite addr v).fl = s.fl := rfl
@[simp] theorem State.memWrite_mem : (s.memWrite addr v).mem = s.mem.write addr.toNat v := rfl
@[simp] theorem State.memWrite_run : (s.memWrite addr v).run = s.run := rfl
@[simp] theorem State.memWrite_fault : (s.memWrite addr v).fault = s.fault := rfl
@[simp] theorem State.memWrite_output : (s.memWrite addr v).output = s.output := rfl

@[simp] theorem State.emit_regs : (s.emit v).regs = s.regs := rfl
@[simp] theorem State.emit_pc : (s.emit v).pc = s.pc := rfl
@[simp] theorem State.emit_fl : (s.emit v).fl = s.fl := rfl
@[simp] theorem State.emit_mem : (s.emit v).mem = s.mem := rfl
@[simp] theorem State.emit_run : (s.emit v).run = s.run := rfl
@[simp] theorem State.emit_fault : (s.emit v).fault = s.fault := rfl
@[simp] theorem State.emit_output : (s.emit v).output = s.output ++ [v] := rfl

@[simp] theorem State.halt_regs : s.halt.regs = s.regs := rfl
@[simp] theorem State.halt_pc : s.halt.pc = s.pc := rfl
@[simp] theorem State.halt_fl : s.halt.fl = s.fl := rfl
@[simp] theorem State.halt_mem : s.halt.mem = s.mem := rfl
@[simp] theorem State.halt_run : s.halt.run = .halted := rfl
@[simp] theorem State.halt_fault : s.halt.fault = s.fault := rfl
@[simp] theorem State.halt_output : s.halt.output = s.output := rfl

@[simp] theorem State.takeFault_regs : (s.takeFault c n).regs = s.regs := rfl
@[simp] theorem State.takeFault_pc : (s.takeFault c n).pc = s.pc := rfl
@[simp] theorem State.takeFault_fl : (s.takeFault c n).fl = s.fl := rfl
@[simp] theorem State.takeFault_mem : (s.takeFault c n).mem = s.mem := rfl
@[simp] theorem State.takeFault_run : (s.takeFault c n).run = .faulted := rfl
@[simp] theorem State.takeFault_fault : (s.takeFault c n).fault = { cause := c, info := n } := rfl
@[simp] theorem State.takeFault_output : (s.takeFault c n).output = s.output := rfl

@[simp] theorem State.resetWith_pc : (State.resetWith fl).pc = 0 := rfl
@[simp] theorem State.resetWith_fl : (State.resetWith fl).fl = fl := rfl
@[simp] theorem State.resetWith_mem : (State.resetWith fl).mem = [] := rfl
@[simp] theorem State.resetWith_run : (State.resetWith fl).run = .running := rfl
@[simp] theorem State.resetWith_fault : (State.resetWith fl).fault = { cause := .none, info := 0 } := rfl
@[simp] theorem State.resetWith_output : (State.resetWith fl).output = [] := rfl

/-- Reading a register is reading its entry of the register file. -/
theorem State.getReg_mk {n : Nat} (h : n < 8) : s.getReg ⟨n, h⟩ = s.regs[n] := rfl

/-- Every register reads back the last value written to it, and no other register changes (R20). -/
theorem State.getReg_setReg : (s.setReg r v).getReg i = if r = i then v else s.getReg i := by
  simp [State.setReg, State.getReg, Vector.getElem_set, Fin.ext_iff]

@[simp] theorem State.getReg_setReg_same : (s.setReg r v).getReg r = v := by simp [State.getReg_setReg]

@[simp] theorem State.sp_setSp : (s.setSp v).sp = v := State.getReg_setReg_same s Config.spReg v

/-- SP is register 7 (R24). -/
theorem State.sp_eq : s.sp = s.regs[7] := rfl

end

end Sys2Proof.Machine
end

