-- ==== Sys2Proof/Laws/Operands.lean ====
section
/-! SUPPORT. Raising a fault and the operand forms: what each does, said once. -/

namespace Sys2Proof.Machine

/-- Raising a fault always answers the next state `takeFault`. -/
theorem raise_eq (c : FaultCause) (n : Nat) (s : State) : raise c n s = .next (s.takeFault c n) := rfl

theorem raise_next {c : FaultCause} {n : Nat} {s t : State} (h : raise c n s = .next t) : t = s.takeFault c n := by
  simpa [raise] using h.symm

/-- A register operand below 8 names the register of that number. -/
theorem withReg_of_lt {b : Byte} (h : b.toNat < 8) (s : State) (k : Fin 8 → Result) :
    withReg b s k = k ⟨b.toNat, h⟩ := by simp [withReg, h]

/-- A register operand of 8 or more faults. -/
theorem withReg_of_ge {b : Byte} (h : 8 ≤ b.toNat) (s : State) (k : Fin 8 → Result) :
    withReg b s k = .next (s.takeFault .boundsRegister b.toNat) := by
  have hn : ¬ b.toNat < 8 := by omega
  simp [withReg, hn, raise]

/-- The byte of a register number names that register. -/
@[simp] theorem withReg_regByte (r : Fin 8) (s : State) (k : Fin 8 → Result) : withReg (regByte r) s k = k r := by
  have h : (regByte r).toNat = r.val := by simp [regByte]; omega
  rw [withReg_of_lt (by omega)]
  congr 1
  exact Fin.ext h

/-- Everything a register operand can lead to. -/
theorem withReg_cases {b : Byte} {s t : State} {k : Fin 8 → Result} (h : withReg b s k = .next t) :
    (∃ hb : b.toNat < 8, k ⟨b.toNat, hb⟩ = .next t) ∨
    (8 ≤ b.toNat ∧ t = s.takeFault .boundsRegister b.toNat) := by
  by_cases hb : b.toNat < 8
  · exact .inl ⟨hb, by rwa [withReg_of_lt hb] at h⟩
  · have hb' : 8 ≤ b.toNat := by omega
    rw [withReg_of_ge hb'] at h
    exact .inr ⟨hb', by simpa using h.symm⟩

theorem withRegs_of_lt {ra rb : Byte} (ha : ra.toNat < 8) (hb : rb.toNat < 8) (s : State) (k : Fin 8 → Fin 8 → Result) :
    withRegs ra rb s k = k ⟨ra.toNat, ha⟩ ⟨rb.toNat, hb⟩ := by
  rw [withRegs, withReg_of_lt ha, withReg_of_lt hb]

/-- rA is checked first, whatever rB is (R211). -/
theorem withRegs_of_ge_left {ra : Byte} (ha : 8 ≤ ra.toNat) (rb : Byte) (s : State) (k : Fin 8 → Fin 8 → Result) :
    withRegs ra rb s k = .next (s.takeFault .boundsRegister ra.toNat) := withReg_of_ge ha s _

theorem withRegs_of_ge_right {ra rb : Byte} (ha : ra.toNat < 8) (hb : 8 ≤ rb.toNat) (s : State)
    (k : Fin 8 → Fin 8 → Result) : withRegs ra rb s k = .next (s.takeFault .boundsRegister rb.toNat) := by
  rw [withRegs, withReg_of_lt ha, withReg_of_ge hb]

/-- Everything two register operands can lead to. -/
theorem withRegs_cases {ra rb : Byte} {s t : State} {k : Fin 8 → Fin 8 → Result} (h : withRegs ra rb s k = .next t) :
    (∃ (ha : ra.toNat < 8) (hb : rb.toNat < 8), k ⟨ra.toNat, ha⟩ ⟨rb.toNat, hb⟩ = .next t) ∨
    (8 ≤ ra.toNat ∧ t = s.takeFault .boundsRegister ra.toNat) ∨
    (8 ≤ rb.toNat ∧ t = s.takeFault .boundsRegister rb.toNat) := by
  rcases withReg_cases h with ⟨ha, h⟩ | h
  · rcases withReg_cases h with ⟨hb, h⟩ | h
    · exact .inl ⟨ha, hb, h⟩
    · exact .inr (.inr h)
  · exact .inr (.inl h)

theorem withSpDown_of_zero {s : State} (h : s.sp = 0) (k : State → Result) :
    withSpDown s k = .next (s.takeFault .boundsStack 0) := by simp [withSpDown, h, raise]

theorem withSpDown_of_ne {s : State} (h : s.sp ≠ 0) (k : State → Result) :
    withSpDown s k = k (s.setSp (s.sp - 1)) := if_neg h

/-- Everything moving SP down can lead to. -/
theorem withSpDown_cases {s t : State} {k : State → Result} (h : withSpDown s k = .next t) :
    (s.sp ≠ 0 ∧ k (s.setSp (s.sp - 1)) = .next t) ∨ (s.sp = 0 ∧ t = s.takeFault .boundsStack 0) := by
  by_cases h0 : s.sp = 0
  · rw [withSpDown_of_zero h0] at h
    exact .inr ⟨h0, by simpa using h.symm⟩
  · exact .inl ⟨h0, by rwa [withSpDown_of_ne h0] at h⟩

theorem withSpUp_of_max {start cur : State} (h : cur.sp = 255) (k : State → Result) :
    withSpUp start cur k = .next (start.takeFault .boundsStack 255) := by simp [withSpUp, h, raise]

theorem withSpUp_of_ne {start cur : State} (h : cur.sp ≠ 255) (k : State → Result) :
    withSpUp start cur k = k (cur.setSp (cur.sp + 1)) := if_neg h

/-- Everything moving SP up can lead to. -/
theorem withSpUp_cases {start cur t : State} {k : State → Result} (h : withSpUp start cur k = .next t) :
    (cur.sp ≠ 255 ∧ k (cur.setSp (cur.sp + 1)) = .next t) ∨
    (cur.sp = 255 ∧ t = start.takeFault .boundsStack 255) := by
  by_cases h0 : cur.sp = 255
  · rw [withSpUp_of_max h0] at h
    exact .inr ⟨h0, by simpa using h.symm⟩
  · exact .inl ⟨h0, by rwa [withSpUp_of_ne h0] at h⟩

end Sys2Proof.Machine
end

