-- ==== Sys2Proof/Laws/Exec.lean ====
section
/-! SUPPORT. Everything each meaning can do, said once: `Effect` lists the completed effect of every instruction, and
`exec_cases` says that exec answers it or a fault. -/

namespace Sys2Proof.Machine

/-! ### exec, arm by arm -/

theorem exec_hlt (s : State) : exec .hlt s = execHlt s := rfl
theorem exec_ldi (ra imm : Byte) (s : State) : exec (.ldi ra imm) s = execLdi ra imm s := rfl
theorem exec_prn (ra : Byte) (s : State) : exec (.prn ra) s = execPrn ra s := rfl
theorem exec_add (ra rb : Byte) (s : State) : exec (.add ra rb) s = execAdd ra rb s := rfl
theorem exec_sub (ra rb : Byte) (s : State) : exec (.sub ra rb) s = execSub ra rb s := rfl
theorem exec_mul (ra rb : Byte) (s : State) : exec (.mul ra rb) s = execMul ra rb s := rfl
theorem exec_mod (ra rb : Byte) (s : State) : exec (.mod ra rb) s = execMod ra rb s := rfl
theorem exec_and (ra rb : Byte) (s : State) : exec (.and ra rb) s = execAnd ra rb s := rfl
theorem exec_or (ra rb : Byte) (s : State) : exec (.or ra rb) s = execOr ra rb s := rfl
theorem exec_xor (ra rb : Byte) (s : State) : exec (.xor ra rb) s = execXor ra rb s := rfl
theorem exec_not (ra : Byte) (s : State) : exec (.not ra) s = execNot ra s := rfl
theorem exec_shl (ra rb : Byte) (s : State) : exec (.shl ra rb) s = execShl ra rb s := rfl
theorem exec_shr (ra rb : Byte) (s : State) : exec (.shr ra rb) s = execShr ra rb s := rfl
theorem exec_cmp (ra rb : Byte) (s : State) : exec (.cmp ra rb) s = execCmp ra rb s := rfl
theorem exec_jmp (ra : Byte) (s : State) : exec (.jmp ra) s = execJmp ra s := rfl
theorem exec_jeq (ra : Byte) (s : State) : exec (.jeq ra) s = execJeq ra s := rfl
theorem exec_jne (ra : Byte) (s : State) : exec (.jne ra) s = execJne ra s := rfl
theorem exec_push (ra : Byte) (s : State) : exec (.push ra) s = execPush ra s := rfl
theorem exec_pop (ra : Byte) (s : State) : exec (.pop ra) s = execPop ra s := rfl
theorem exec_call (ra : Byte) (s : State) : exec (.call ra) s = execCall ra s := rfl
theorem exec_ret (s : State) : exec .ret s = execRet s := rfl

/-- The state a two-register operation completes in. -/
theorem aluBinary_of_lt {ra rb : Byte} (ha : ra.toNat < 8) (hb : rb.toNat < 8) (f : Byte → Byte → Byte) (s : State) :
    aluBinary f ra rb s = .next ((s.setReg ⟨ra.toNat, ha⟩
      (f (s.getReg ⟨ra.toNat, ha⟩) (s.getReg ⟨rb.toNat, hb⟩))).advance 3) := withRegs_of_lt ha hb s _

/-- Everything a two-register operation can do. -/
theorem aluBinary_cases {f : Byte → Byte → Byte} {ra rb : Byte} {s t : State} (h : aluBinary f ra rb s = .next t) :
    (∃ r v, r.val = ra.toNat ∧ t = (s.setReg r v).advance 3) ∨
    (∃ n, 8 ≤ n ∧ n ≤ 255 ∧ t = s.takeFault .boundsRegister n) := by
  have ha' := ra.isLt
  have hb' := rb.isLt
  rcases withRegs_cases h with ⟨ha, hb, h⟩ | ⟨hn, h⟩ | ⟨hn, h⟩
  · exact .inl ⟨⟨ra.toNat, ha⟩, _, rfl, by simpa using h.symm⟩
  · exact .inr ⟨_, hn, by omega, h⟩
  · exact .inr ⟨_, hn, by omega, h⟩

/-- The faults an instruction's own rule and its register check can raise, with their information word (R201). -/
def ExecFault (s : State) (i : Instr) : FaultCause → Nat → Prop
  | .boundsRegister, n => 8 ≤ n ∧ n ≤ 255
  | .boundsStack, n => i.op ∈ [Op.push, .pop, .call, .ret] ∧ (n = 0 ∨ n = 255)
  | .boundsRetAddr, n => i.op = .call ∧ n = s.pc.toNat + 2 ∧ 256 ≤ n
  | .arithModZero, n => i.op = .mod ∧ n < 8
  | _, _ => False

/-- The completed effect of an instruction, by the shape of what it writes. -/
inductive Effect (s : State) : Instr → State → Prop where
  | hlt : Effect s .hlt (s.halt.advance 1)
  | ldi {ra imm : Byte} (r : Fin 8) (hr : r.val = ra.toNat) : Effect s (.ldi ra imm) ((s.setReg r imm).advance 3)
  | prn {ra : Byte} (r : Fin 8) (hr : r.val = ra.toNat) : Effect s (.prn ra) ((s.emit (s.getReg r)).advance 2)
  | alu {i : Instr} {ra rb : Byte} (r : Fin 8) (v : Byte) (hr : r.val = ra.toNat)
      (hi : i ∈ [Instr.add ra rb, .sub ra rb, .mul ra rb, .mod ra rb, .and ra rb, .or ra rb, .xor ra rb,
        .shl ra rb, .shr ra rb]) : Effect s i ((s.setReg r v).advance 3)
  | not {ra : Byte} (r : Fin 8) (v : Byte) (hr : r.val = ra.toNat) : Effect s (.not ra) ((s.setReg r v).advance 2)
  | cmp {ra rb : Byte} (a b : Byte) : Effect s (.cmp ra rb) ((s.setFl (compareFlags a b)).advance 3)
  | jump {i : Instr} {ra : Byte} (v : Byte) (hi : i ∈ [Instr.jmp ra, .jeq ra, .jne ra]) : Effect s i (s.setPc v)
  | fallThrough {i : Instr} {ra : Byte} (hi : i ∈ [Instr.jeq ra, .jne ra]) : Effect s i (s.advance 2)
  | push {ra : Byte} (v : Byte) : Effect s (.push ra)
      (((s.setSp (s.sp - 1)).memWrite (s.sp - 1) v).advance 2)
  | pop {ra : Byte} (r : Fin 8) (v w : Byte) (hr : r.val = ra.toNat) : Effect s (.pop ra)
      (((s.setReg r v).setSp w).advance 2)
  | call {ra : Byte} (v w : Byte) (hpc : s.pc.toNat + 2 < 256) : Effect s (.call ra)
      (((s.setSp (s.sp - 1)).memWrite (s.sp - 1) v).setPc w)
  | ret (v w : Byte) : Effect s .ret ((s.setSp v).setPc w)

/-- A fault an instruction raises has a cause, and not the reserved one (R210). -/
theorem ExecFault.cause_ne {s : State} {i : Instr} {c : FaultCause} {n : Nat} (h : ExecFault s i c n) :
    c ≠ .none ∧ c ≠ .arithUnsupported := by
  cases c <;> simp [ExecFault] at h ⊢

/-- A completed instruction keeps the run state, but for HLT. -/
theorem Effect.run_eq {s t : State} {i : Instr} (h : Effect s i t) :
    t.run = s.run ∨ (i = .hlt ∧ t.run = .halted) := by cases h <;> simp

/-- A completed instruction keeps the fault record (R38). -/
theorem Effect.fault_eq {s t : State} {i : Instr} (h : Effect s i t) : t.fault = s.fault := by cases h <;> simp

/-- A completed instruction advances PC by its width, or is a jump, call or return that sets it to a byte (R104). -/
theorem Effect.pc_eq {s t : State} {i : Instr} (h : Effect s i t) :
    (i.op ∉ [Op.jmp, .call, .ret] ∧ t.pc = s.pc + BitVec.ofNat 9 i.op.width) ∨
    (i.op ∈ [Op.jmp, .jeq, .jne, .call, .ret] ∧ ∃ v : Byte, t.pc = v.setWidth 9) := by
  cases h with
  | alu r v hr hi =>
    simp only [List.mem_cons, List.not_mem_nil, or_false] at hi
    rcases hi with rfl | rfl | rfl | rfl | rfl | rfl | rfl | rfl | rfl <;> exact .inl ⟨by simp [Instr.op], rfl⟩
  | jump v hi =>
    simp only [List.mem_cons, List.not_mem_nil, or_false] at hi
    rcases hi with rfl | rfl | rfl <;> exact .inr ⟨by simp [Instr.op], _, rfl⟩
  | fallThrough hi =>
    simp only [List.mem_cons, List.not_mem_nil, or_false] at hi
    rcases hi with rfl | rfl <;> exact .inl ⟨by simp [Instr.op], rfl⟩
  | call v w hpc => exact .inr ⟨by simp [Instr.op], _, rfl⟩
  | ret v w => exact .inr ⟨by simp [Instr.op], _, rfl⟩
  | _ => exact .inl ⟨by simp [Instr.op], rfl⟩

section
variable {s t : State} {ra rb imm : Byte}

theorem branchIf_cases {taken : Bool} (h : branchIf taken ra s = .next t) :
    (∃ v, taken = true ∧ t = s.setPc v) ∨ (taken = false ∧ t = s.advance 2) ∨
    (8 ≤ ra.toNat ∧ t = s.takeFault .boundsRegister ra.toNat) := by
  rcases withReg_cases h with ⟨ha, h⟩ | h
  · cases taken with
    | true => exact .inl ⟨_, rfl, by simpa using h.symm⟩
    | false => exact .inr (.inl ⟨rfl, by simpa using h.symm⟩)
  · exact .inr (.inr h)

theorem execMod_cases (h : execMod ra rb s = .next t) :
    (∃ r v, r.val = ra.toNat ∧ t = (s.setReg r v).advance 3) ∨
    (∃ n, 8 ≤ n ∧ n ≤ 255 ∧ t = s.takeFault .boundsRegister n) ∨
    (∃ n, n < 8 ∧ t = s.takeFault .arithModZero n) := by
  have ha' := ra.isLt
  have hb' := rb.isLt
  rcases withRegs_cases h with ⟨ha, hb, h⟩ | ⟨hn, h⟩ | ⟨hn, h⟩
  · split at h
    · exact .inr (.inr ⟨_, hb, raise_next h⟩)
    · exact .inl ⟨⟨ra.toNat, ha⟩, _, rfl, by simpa using h.symm⟩
  · exact .inr (.inl ⟨_, hn, by omega, h⟩)
  · exact .inr (.inl ⟨_, hn, by omega, h⟩)

theorem execPush_cases (h : execPush ra s = .next t) :
    (∃ v, t = (((s.setSp (s.sp - 1)).memWrite (s.sp - 1) v).advance 2)) ∨
    (8 ≤ ra.toNat ∧ t = s.takeFault .boundsRegister ra.toNat) ∨ t = s.takeFault .boundsStack 0 := by
  rcases withReg_cases h with ⟨ha, h⟩ | h
  · rcases withSpDown_cases h with ⟨_, h⟩ | ⟨_, h⟩
    · exact .inl ⟨_, by simpa using h.symm⟩
    · exact .inr (.inr h)
  · exact .inr (.inl h)

theorem execPop_cases (h : execPop ra s = .next t) :
    (∃ r v w, r.val = ra.toNat ∧ t = (((s.setReg r v).setSp w).advance 2)) ∨
    (8 ≤ ra.toNat ∧ t = s.takeFault .boundsRegister ra.toNat) ∨ t = s.takeFault .boundsStack 255 := by
  rcases withReg_cases h with ⟨ha, h⟩ | h
  · rcases withSpUp_cases h with ⟨_, h⟩ | ⟨_, h⟩
    · exact .inl ⟨⟨ra.toNat, ha⟩, _, _, rfl, by simpa using h.symm⟩
    · exact .inr (.inr h)
  · exact .inr (.inl h)

theorem execCall_cases (h : execCall ra s = .next t) :
    (s.pc.toNat + 2 < 256 ∧ ∃ v w, t = (((s.setSp (s.sp - 1)).memWrite (s.sp - 1) v).setPc w)) ∨
    (8 ≤ ra.toNat ∧ t = s.takeFault .boundsRegister ra.toNat) ∨ t = s.takeFault .boundsStack 0 ∨
    (256 ≤ s.pc.toNat + 2 ∧ t = s.takeFault .boundsRetAddr (s.pc.toNat + 2)) := by
  rcases withReg_cases h with ⟨ha, h⟩ | h
  · rcases withSpDown_cases h with ⟨_, h⟩ | ⟨_, h⟩
    · simp only [ge_iff_le] at h
      split at h
      · next hge => exact .inr (.inr (.inr ⟨hge, raise_next h⟩))
      · next hlt => exact .inl ⟨Nat.lt_of_not_le hlt, _, _, by simpa using h.symm⟩
    · exact .inr (.inr (.inl h))
  · exact .inr (.inl h)

theorem execRet_cases (h : execRet s = .next t) :
    (∃ v w, t = (s.setSp v).setPc w) ∨ t = s.takeFault .boundsStack 255 := by
  rcases withSpUp_cases h with ⟨_, h⟩ | ⟨_, h⟩
  · exact .inl ⟨_, _, by simpa using h.symm⟩
  · exact .inr h

/-- A two-register operation of the table, by its cases. -/
theorem aluBinary_effect {f : Byte → Byte → Byte} {i : Instr} (h : aluBinary f ra rb s = .next t)
    (hi : i ∈ [Instr.add ra rb, .sub ra rb, .mul ra rb, .mod ra rb, .and ra rb, .or ra rb, .xor ra rb,
        .shl ra rb, .shr ra rb]) :
    Effect s i t ∨ ∃ c n, ExecFault s i c n ∧ t = s.takeFault c n := by
  rcases aluBinary_cases h with ⟨r, v, hr, rfl⟩ | ⟨n, h1, h2, rfl⟩
  · exact .inl (.alu r v hr hi)
  · exact .inr ⟨.boundsRegister, n, ⟨h1, h2⟩, rfl⟩

/-- Everything exec can do when it answers a next state: the completed effect of the instruction, or a fault of its
register check or its own rule. -/
theorem exec_cases {i : Instr} (h : exec i s = .next t) :
    Effect s i t ∨ ∃ c n, ExecFault s i c n ∧ t = s.takeFault c n := by
  have reg : ∀ b : Byte, 8 ≤ b.toNat → t = s.takeFault .boundsRegister b.toNat →
      ∃ c n, ExecFault s i c n ∧ t = s.takeFault c n := fun b hb ht =>
    ⟨.boundsRegister, b.toNat, ⟨hb, by have := b.isLt; omega⟩, ht⟩
  cases i with
  | hlt =>
    obtain rfl : t = s.halt.advance 1 := by simpa [exec, execHlt, hltPcAdvance] using h.symm
    exact .inl .hlt
  | ldi ra imm =>
    simp only [exec, execLdi] at h
    rcases withReg_cases h with ⟨ha, h⟩ | ⟨hb, h⟩
    · obtain rfl : t = (s.setReg ⟨ra.toNat, ha⟩ imm).advance 3 := by simpa using h.symm
      exact .inl (.ldi ⟨ra.toNat, ha⟩ rfl)
    · exact .inr (reg _ hb h)
  | prn ra =>
    simp only [exec, execPrn] at h
    rcases withReg_cases h with ⟨ha, h⟩ | ⟨hb, h⟩
    · obtain rfl : t = (s.emit (s.getReg ⟨ra.toNat, ha⟩)).advance 2 := by simpa using h.symm
      exact .inl (.prn ⟨ra.toNat, ha⟩ rfl)
    · exact .inr (reg _ hb h)
  | add ra rb => exact aluBinary_effect h (by simp)
  | sub ra rb => exact aluBinary_effect h (by simp)
  | mul ra rb => exact aluBinary_effect h (by simp)
  | mod ra rb =>
    rcases execMod_cases h with ⟨r, v, hr, rfl⟩ | ⟨n, h1, h2, rfl⟩ | ⟨n, h1, rfl⟩
    · exact .inl (.alu (rb := rb) r v hr (by simp))
    · exact .inr ⟨.boundsRegister, n, ⟨h1, h2⟩, rfl⟩
    · exact .inr ⟨.arithModZero, n, ⟨rfl, h1⟩, rfl⟩
  | and ra rb => exact aluBinary_effect h (by simp)
  | or ra rb => exact aluBinary_effect h (by simp)
  | xor ra rb => exact aluBinary_effect h (by simp)
  | not ra =>
    simp only [exec, execNot] at h
    rcases withReg_cases h with ⟨ha, h⟩ | ⟨hb, h⟩
    · obtain rfl : t = (s.setReg ⟨ra.toNat, ha⟩ (aluNot (s.getReg ⟨ra.toNat, ha⟩))).advance 2 := by
        simpa using h.symm
      exact .inl (.not ⟨ra.toNat, ha⟩ _ rfl)
    · exact .inr (reg _ hb h)
  | shl ra rb => exact aluBinary_effect h (by simp)
  | shr ra rb => exact aluBinary_effect h (by simp)
  | cmp ra rb =>
    simp only [exec, execCmp] at h
    rcases withRegs_cases h with ⟨ha, hb, h⟩ | ⟨hb, h⟩ | ⟨hb, h⟩
    · obtain rfl : t = (s.setFl (compareFlags (s.getReg ⟨ra.toNat, ha⟩) (s.getReg ⟨rb.toNat, hb⟩))).advance 3 := by
        simpa using h.symm
      exact .inl (.cmp _ _)
    · exact .inr (reg _ hb h)
    · exact .inr (reg _ hb h)
  | jmp ra =>
    rcases branchIf_cases h with ⟨v, -, rfl⟩ | ⟨h0, -⟩ | ⟨hb, h⟩
    · exact .inl (.jump (ra := ra) v (by simp))
    · exact absurd h0 (by decide)
    · exact .inr (reg _ hb h)
  | jeq ra =>
    rcases branchIf_cases h with ⟨v, -, rfl⟩ | ⟨-, rfl⟩ | ⟨hb, h⟩
    · exact .inl (.jump (ra := ra) v (by simp))
    · exact .inl (.fallThrough (ra := ra) (by simp))
    · exact .inr (reg _ hb h)
  | jne ra =>
    rcases branchIf_cases h with ⟨v, -, rfl⟩ | ⟨-, rfl⟩ | ⟨hb, h⟩
    · exact .inl (.jump (ra := ra) v (by simp))
    · exact .inl (.fallThrough (ra := ra) (by simp))
    · exact .inr (reg _ hb h)
  | push ra =>
    rcases execPush_cases h with ⟨v, rfl⟩ | ⟨hb, h⟩ | rfl
    · exact .inl (.push v)
    · exact .inr (reg _ hb h)
    · exact .inr ⟨.boundsStack, 0, ⟨by simp [Instr.op], .inl rfl⟩, rfl⟩
  | pop ra =>
    rcases execPop_cases h with ⟨r, v, w, hr, rfl⟩ | ⟨hb, h⟩ | rfl
    · exact .inl (.pop r v w hr)
    · exact .inr (reg _ hb h)
    · exact .inr ⟨.boundsStack, 255, ⟨by simp [Instr.op], .inr rfl⟩, rfl⟩
  | call ra =>
    rcases execCall_cases h with ⟨hpc, v, w, rfl⟩ | ⟨hb, h⟩ | rfl | ⟨hge, rfl⟩
    · exact .inl (.call v w hpc)
    · exact .inr (reg _ hb h)
    · exact .inr ⟨.boundsStack, 0, ⟨by simp [Instr.op], .inl rfl⟩, rfl⟩
    · exact .inr ⟨.boundsRetAddr, _, ⟨rfl, rfl, hge⟩, rfl⟩
  | ret =>
    rcases execRet_cases h with ⟨v, w, rfl⟩ | rfl
    · exact .inl (.ret v w)
    · exact .inr ⟨.boundsStack, 255, ⟨by simp [Instr.op], .inr rfl⟩, rfl⟩

end

/-- A register operand always leads to a next state if what follows does. -/
theorem withReg_total {b : Byte} {s : State} {k : Fin 8 → Result} (h : ∀ r, ∃ t, k r = .next t) :
    ∃ t, withReg b s k = .next t := by
  by_cases hb : b.toNat < 8
  · simpa [withReg_of_lt hb] using h ⟨b.toNat, hb⟩
  · exact ⟨_, withReg_of_ge (by omega) s k⟩

theorem withSpDown_total {s : State} {k : State → Result} (h : ∀ u, ∃ t, k u = .next t) :
    ∃ t, withSpDown s k = .next t := by
  by_cases h0 : s.sp = 0
  · exact ⟨_, withSpDown_of_zero h0 k⟩
  · simpa [withSpDown_of_ne h0] using h (s.setSp (s.sp - 1))

theorem withSpUp_total {start cur : State} {k : State → Result} (h : ∀ u, ∃ t, k u = .next t) :
    ∃ t, withSpUp start cur k = .next t := by
  by_cases h0 : cur.sp = 255
  · exact ⟨_, withSpUp_of_max h0 k⟩
  · simpa [withSpUp_of_ne h0] using h (cur.setSp (cur.sp + 1))

/-- Every instruction answers a next state at every state: no meaning stops. -/
theorem exec_total (i : Instr) (s : State) : ∃ t, exec i s = .next t := by
  have two : ∀ (ra rb : Byte) (k : Fin 8 → Fin 8 → Result), (∀ a b, ∃ t, k a b = .next t) →
      ∃ t, withRegs ra rb s k = .next t := fun ra rb k hk => withReg_total fun a => withReg_total fun b => hk a b
  cases i with
  | hlt => exact ⟨_, rfl⟩
  | ldi ra imm => simp only [exec, execLdi]; exact withReg_total fun _ => ⟨_, rfl⟩
  | prn ra => simp only [exec, execPrn]; exact withReg_total fun _ => ⟨_, rfl⟩
  | add ra rb => simp only [exec, execAdd, aluBinary]; exact two _ _ _ fun _ _ => ⟨_, rfl⟩
  | sub ra rb => simp only [exec, execSub, aluBinary]; exact two _ _ _ fun _ _ => ⟨_, rfl⟩
  | mul ra rb => simp only [exec, execMul, aluBinary]; exact two _ _ _ fun _ _ => ⟨_, rfl⟩
  | mod ra rb =>
    simp only [exec, execMod]
    refine two _ _ _ fun a b => ?_
    by_cases h0 : s.getReg b = 0
    · exact ⟨_, if_pos h0⟩
    · exact ⟨_, if_neg h0⟩
  | and ra rb => simp only [exec, execAnd, aluBinary]; exact two _ _ _ fun _ _ => ⟨_, rfl⟩
  | or ra rb => simp only [exec, execOr, aluBinary]; exact two _ _ _ fun _ _ => ⟨_, rfl⟩
  | xor ra rb => simp only [exec, execXor, aluBinary]; exact two _ _ _ fun _ _ => ⟨_, rfl⟩
  | not ra => simp only [exec, execNot]; exact withReg_total fun _ => ⟨_, rfl⟩
  | shl ra rb => simp only [exec, execShl, aluBinary]; exact two _ _ _ fun _ _ => ⟨_, rfl⟩
  | shr ra rb => simp only [exec, execShr, aluBinary]; exact two _ _ _ fun _ _ => ⟨_, rfl⟩
  | cmp ra rb => simp only [exec, execCmp]; exact two _ _ _ fun _ _ => ⟨_, rfl⟩
  | jmp ra => simp only [exec, execJmp, branchIf]; exact withReg_total fun _ => ⟨_, rfl⟩
  | jeq ra => simp only [exec, execJeq, branchIf]; exact withReg_total fun _ => ⟨_, rfl⟩
  | jne ra => simp only [exec, execJne, branchIf]; exact withReg_total fun _ => ⟨_, rfl⟩
  | push ra => simp only [exec, execPush]; exact withReg_total fun _ => withSpDown_total fun _ => ⟨_, rfl⟩
  | pop ra => simp only [exec, execPop]; exact withReg_total fun _ => withSpUp_total fun _ => ⟨_, rfl⟩
  | call ra =>
    simp only [exec, execCall]
    refine withReg_total fun a => withSpDown_total fun u => ?_
    by_cases h0 : s.pc.toNat + 2 ≥ Config.memSize
    · exact ⟨_, if_pos h0⟩
    · exact ⟨_, if_neg h0⟩
  | ret => simp only [exec, execRet]; exact withSpUp_total fun _ => ⟨_, rfl⟩

end Sys2Proof.Machine
end

