-- ==== Sys2Proof/Laws/Memory.lean ====
section
/-! SUPPORT. Memory: what a read gives after a write, and that every memory operation keeps the canonical form. -/

namespace Sys2Proof.Machine

@[simp] theorem Memory.read_nil (a : Nat) : Memory.read [] a = 0#8 := rfl

/-- An address below every listed one reads as 0. -/
theorem Memory.read_of_lt {m : Memory} {lo a : Nat} (h : Memory.wfFrom lo m = true) (ha : a < lo) :
    m.read a = 0#8 := by
  induction m generalizing lo with
  | nil => rfl
  | cons c m ih =>
    obtain ⟨b, w⟩ := c
    simp only [Memory.wfFrom, Bool.and_eq_true, decide_eq_true_eq] at h
    have hne : a ≠ b := by omega
    simp [Memory.read, hne, ih h.2 (by omega)]

/-- A bound on the listed addresses may be lowered. -/
theorem Memory.wfFrom_mono {m : Memory} {lo lo' : Nat} (h : Memory.wfFrom lo m = true) (hl : lo' ≤ lo) :
    Memory.wfFrom lo' m = true := by
  cases m with
  | nil => rfl
  | cons c m =>
    obtain ⟨b, w⟩ := c
    simp only [Memory.wfFrom, Bool.and_eq_true, decide_eq_true_eq] at h ⊢
    exact ⟨⟨⟨by omega, h.1.1.2⟩, h.1.2⟩, h.2⟩

/-- A write keeps the canonical form above any bound it respects. -/
theorem Memory.wfFrom_write {m : Memory} {lo a : Nat} (v : Byte) (h : Memory.wfFrom lo m = true) (hl : lo ≤ a)
    (ha : a < 256) : Memory.wfFrom lo (m.write a v) = true := by
  induction m generalizing lo with
  | nil =>
    by_cases hv : v = 0#8 <;> simp [Memory.write, Memory.wfFrom, hv, hl, ha, Config.memSize]
  | cons c m ih =>
    obtain ⟨b, w⟩ := c
    simp only [Memory.wfFrom, Bool.and_eq_true, decide_eq_true_eq] at h
    obtain ⟨⟨⟨h1, h2⟩, h3⟩, h4⟩ := h
    rcases Nat.lt_trichotomy a b with hab | rfl | hab
    · by_cases hv : v = 0#8
      · simpa [Memory.write, hab, hv, Memory.wfFrom, h1, h2, h4] using h3
      · have h5 : a + 1 ≤ b := hab
        have ha' : a < Config.memSize := ha
        simpa [Memory.write, hab, hv, Memory.wfFrom, h5, h2, h4, hl, ha'] using h3
    · by_cases hv : v = 0#8
      · simpa [Memory.write, hv] using Memory.wfFrom_mono h4 (by omega)
      · simp [Memory.write, hv, Memory.wfFrom, h1, h2, h4]
    · have h5 : ¬ a < b := by omega
      have h6 : a ≠ b := by omega
      simpa [Memory.write, h5, h6, Memory.wfFrom, h1, h2, ih h4 hab] using h3

/-- A write inside the address space keeps the canonical form. -/
theorem Memory.wf_write {m : Memory} (h : m.wf = true) {a : Nat} (ha : a < 256) (v : Byte) :
    (m.write a v).wf = true :=
  Memory.wfFrom_write v h (Nat.zero_le a) ha

/-- A write to an address held in a byte keeps the canonical form. -/
theorem Memory.wf_write_byte {m : Memory} (h : m.wf = true) (a v : Byte) : (m.write a.toNat v).wf = true :=
  Memory.wf_write h a.isLt v

/-- What any address reads as after a write. -/
theorem Memory.read_write {m : Memory} {lo : Nat} (h : Memory.wfFrom lo m = true) (a b : Nat) (v : Byte) :
    (m.write a v).read b = if b = a then v else m.read b := by
  induction m generalizing lo with
  | nil =>
    by_cases hv : v = 0#8 <;> by_cases hb : b = a <;> simp [Memory.write, Memory.read, hv, hb]
  | cons c m ih =>
    obtain ⟨d, w⟩ := c
    simp only [Memory.wfFrom, Bool.and_eq_true, decide_eq_true_eq] at h
    obtain ⟨⟨⟨h1, h2⟩, h3⟩, h4⟩ := h
    rcases Nat.lt_trichotomy a d with hab | rfl | hab
    · have hr : Memory.read m a = 0#8 := Memory.read_of_lt h4 (by omega)
      have hne : a ≠ d := by omega
      by_cases hv : v = 0#8 <;> by_cases hb : b = a <;> simp_all [Memory.write, Memory.read]
    · have hr : Memory.read m a = 0#8 := Memory.read_of_lt h4 (by omega)
      by_cases hv : v = 0#8 <;> by_cases hb : b = a <;> simp_all [Memory.write, Memory.read]
    · have h5 : ¬ a < d := by omega
      have h6 : a ≠ d := by omega
      by_cases hd : b = d
      · have hne : b ≠ a := by omega
        simp [Memory.write, Memory.read, h5, h6, hd, Ne.symm h6]
      · simp [Memory.write, Memory.read, h5, h6, hd, ih h4]

/-- A read after a write to the same address gives the value written. -/
theorem Memory.read_write_same {m : Memory} (h : m.wf = true) (a : Nat) (v : Byte) : (m.write a v).read a = v := by
  simp [Memory.read_write h]

/-- A write leaves every other address alone, in canonical memory or not. -/
theorem Memory.read_write_of_ne (m : Memory) {a b : Nat} (v : Byte) (hb : b ≠ a) :
    (m.write a v).read b = m.read b := by
  induction m with
  | nil => by_cases hv : v = 0#8 <;> simp [Memory.write, Memory.read, hv, hb]
  | cons c m ih =>
    obtain ⟨d, w⟩ := c
    rcases Nat.lt_trichotomy a d with h1 | rfl | h1
    · by_cases hv : v = 0#8 <;> simp [Memory.write, Memory.read, h1, hv, hb]
    · by_cases hv : v = 0#8 <;> simp [Memory.write, Memory.read, hv, hb]
    · have h5 : ¬ a < d := by omega
      have h6 : a ≠ d := by omega
      simp [Memory.write, Memory.read, h5, h6, ih]

/-- Storing a run of bytes keeps the canonical form. -/
theorem Memory.wf_writeBytes {m : Memory} (h : m.wf = true) (a : Nat) (vs : List Byte) :
    (m.writeBytes a vs).wf = true := by
  induction vs generalizing m a with
  | nil => exact h
  | cons v vs ih =>
    by_cases ha : a < Config.memSize
    · simpa [Memory.writeBytes, ha] using ih (Memory.wf_write h ha v) (a + 1)
    · simpa [Memory.writeBytes, ha] using ih h (a + 1)

/-- Storing bytes from `a` upward leaves the addresses below `a` alone. -/
theorem Memory.read_writeBytes_of_lt (m : Memory) (a : Nat) (vs : List Byte) {b : Nat} (hb : b < a) :
    (m.writeBytes a vs).read b = m.read b := by
  induction vs generalizing m a with
  | nil => rfl
  | cons v vs ih =>
    have hne : b ≠ a := by omega
    by_cases ha : a < Config.memSize
    · simp [Memory.writeBytes, ha, ih _ (a + 1) (by omega), Memory.read_write_of_ne m v hne]
    · simp [Memory.writeBytes, ha, ih _ (a + 1) (by omega)]

/-- Canonical memories that read the same everywhere are equal. -/
theorem Memory.eq_of_read_eq {m m' : Memory} {lo : Nat} (h : Memory.wfFrom lo m = true)
    (h' : Memory.wfFrom lo m' = true) (hr : ∀ a, m.read a = m'.read a) : m = m' := by
  induction m generalizing lo m' with
  | nil =>
    cases m' with
    | nil => rfl
    | cons c m' =>
      obtain ⟨b, w⟩ := c
      simp only [Memory.wfFrom, Bool.and_eq_true, decide_eq_true_eq] at h'
      exact absurd (by simpa [Memory.read] using hr b) (Ne.symm h'.1.2)
  | cons c m ih =>
    obtain ⟨b, w⟩ := c
    simp only [Memory.wfFrom, Bool.and_eq_true, decide_eq_true_eq] at h
    cases m' with
    | nil => exact absurd (by simpa [Memory.read] using hr b) h.1.2
    | cons c' m' =>
      obtain ⟨b', w'⟩ := c'
      simp only [Memory.wfFrom, Bool.and_eq_true, decide_eq_true_eq] at h'
      have hb : b = b' := by
        rcases Nat.lt_trichotomy b b' with hlt | heq | hgt
        · have h0 := hr b
          have hz : Memory.read m' b = 0#8 := Memory.read_of_lt h'.2 (by omega)
          have hne : b ≠ b' := by omega
          simp [Memory.read, hne, hz] at h0
          exact absurd h0 h.1.2
        · exact heq
        · have h0 := hr b'
          have hz : Memory.read m b' = 0#8 := Memory.read_of_lt h.2 (by omega)
          have hne : b' ≠ b := by omega
          simp [Memory.read, hne, hz] at h0
          exact absurd h0.symm h'.1.2
      subst hb
      have hw : w = w' := by simpa [Memory.read] using hr b
      subst hw
      have ht : m = m' := ih h.2 h'.2 (fun a => by
        by_cases ha : a = b
        · rw [ha, Memory.read_of_lt h.2 (by omega), Memory.read_of_lt h'.2 (by omega)]
        · simpa [Memory.read, ha] using hr a)
      rw [ht]

/-- Reset memory is canonical. -/
theorem reset_memory_wf (fl : FlagsWord) : (State.resetWith fl).mem.wf = true := rfl

end Sys2Proof.Machine
end

