-- ==== Sys2Proof/Laws/PerInstr.lean ====
section
/-! SUPPORT. Statements made per instruction: the length of an encoding and its register operands are those the table
gives the mnemonic (R70, R71). -/

/-- The encoding of the instruction is as long as its mnemonic's width, and its well-formedness is that of the operand
bytes its format marks as register indices. -/
def Sys2Proof.Laws.EncodeLength.Statement (i : Sys2Proof.Instr) : Prop :=
  (Sys2Proof.encode i).length = i.op.width ∧
  i.regOperands = i.op.format.regOperands (i.operands.getD 0 0) (i.operands.getD 1 0)

theorem Sys2Proof.Laws.EncodeLength.hlt :
    Sys2Proof.Laws.EncodeLength.Statement .hlt := ⟨rfl, rfl⟩

theorem Sys2Proof.Laws.EncodeLength.ldi (ra imm : Sys2Proof.Byte) :
    Sys2Proof.Laws.EncodeLength.Statement (.ldi ra imm) := ⟨rfl, rfl⟩

theorem Sys2Proof.Laws.EncodeLength.prn (ra : Sys2Proof.Byte) :
    Sys2Proof.Laws.EncodeLength.Statement (.prn ra) := ⟨rfl, rfl⟩

theorem Sys2Proof.Laws.EncodeLength.add (ra rb : Sys2Proof.Byte) :
    Sys2Proof.Laws.EncodeLength.Statement (.add ra rb) := ⟨rfl, rfl⟩

theorem Sys2Proof.Laws.EncodeLength.sub (ra rb : Sys2Proof.Byte) :
    Sys2Proof.Laws.EncodeLength.Statement (.sub ra rb) := ⟨rfl, rfl⟩

theorem Sys2Proof.Laws.EncodeLength.mul (ra rb : Sys2Proof.Byte) :
    Sys2Proof.Laws.EncodeLength.Statement (.mul ra rb) := ⟨rfl, rfl⟩

theorem Sys2Proof.Laws.EncodeLength.mod (ra rb : Sys2Proof.Byte) :
    Sys2Proof.Laws.EncodeLength.Statement (.mod ra rb) := ⟨rfl, rfl⟩

theorem Sys2Proof.Laws.EncodeLength.and (ra rb : Sys2Proof.Byte) :
    Sys2Proof.Laws.EncodeLength.Statement (.and ra rb) := ⟨rfl, rfl⟩

theorem Sys2Proof.Laws.EncodeLength.or (ra rb : Sys2Proof.Byte) :
    Sys2Proof.Laws.EncodeLength.Statement (.or ra rb) := ⟨rfl, rfl⟩

theorem Sys2Proof.Laws.EncodeLength.xor (ra rb : Sys2Proof.Byte) :
    Sys2Proof.Laws.EncodeLength.Statement (.xor ra rb) := ⟨rfl, rfl⟩

theorem Sys2Proof.Laws.EncodeLength.not (ra : Sys2Proof.Byte) :
    Sys2Proof.Laws.EncodeLength.Statement (.not ra) := ⟨rfl, rfl⟩

theorem Sys2Proof.Laws.EncodeLength.shl (ra rb : Sys2Proof.Byte) :
    Sys2Proof.Laws.EncodeLength.Statement (.shl ra rb) := ⟨rfl, rfl⟩

theorem Sys2Proof.Laws.EncodeLength.shr (ra rb : Sys2Proof.Byte) :
    Sys2Proof.Laws.EncodeLength.Statement (.shr ra rb) := ⟨rfl, rfl⟩

theorem Sys2Proof.Laws.EncodeLength.cmp (ra rb : Sys2Proof.Byte) :
    Sys2Proof.Laws.EncodeLength.Statement (.cmp ra rb) := ⟨rfl, rfl⟩

theorem Sys2Proof.Laws.EncodeLength.jmp (ra : Sys2Proof.Byte) :
    Sys2Proof.Laws.EncodeLength.Statement (.jmp ra) := ⟨rfl, rfl⟩

theorem Sys2Proof.Laws.EncodeLength.jeq (ra : Sys2Proof.Byte) :
    Sys2Proof.Laws.EncodeLength.Statement (.jeq ra) := ⟨rfl, rfl⟩

theorem Sys2Proof.Laws.EncodeLength.jne (ra : Sys2Proof.Byte) :
    Sys2Proof.Laws.EncodeLength.Statement (.jne ra) := ⟨rfl, rfl⟩

theorem Sys2Proof.Laws.EncodeLength.push (ra : Sys2Proof.Byte) :
    Sys2Proof.Laws.EncodeLength.Statement (.push ra) := ⟨rfl, rfl⟩

theorem Sys2Proof.Laws.EncodeLength.pop (ra : Sys2Proof.Byte) :
    Sys2Proof.Laws.EncodeLength.Statement (.pop ra) := ⟨rfl, rfl⟩

theorem Sys2Proof.Laws.EncodeLength.call (ra : Sys2Proof.Byte) :
    Sys2Proof.Laws.EncodeLength.Statement (.call ra) := ⟨rfl, rfl⟩

theorem Sys2Proof.Laws.EncodeLength.ret :
    Sys2Proof.Laws.EncodeLength.Statement .ret := ⟨rfl, rfl⟩
end

