-- ==== Sys2Proof/Laws/Step.lean ====
section
/-! SUPPORT. The step and runs: everything a step can do, said once, and the induction over a run. -/

namespace Sys2Proof.Machine

/-- Inside memory there is a byte to fetch, the one a read gives (R51). -/
theorem State.byteAt?_of_lt (s : State) {a : Nat} (h : a < 256) : s.byteAt? a = some (s.mem.read a) := if_pos h

/-- At 256 and above there is none (R51). -/
theorem State.byteAt?_of_ge (s : State) {a : Nat} (h : 256 ≤ a) : s.byteAt? a = none :=
  if_neg (Nat.not_lt.mpr h)

theorem State.codeAt_of_lt (s : State) {k : Nat} (h : s.pc.toNat + k < 256) :
    s.codeAt k = some (s.mem.read (s.pc.toNat + k)) := s.byteAt?_of_lt h

theorem State.codeAt_of_ge (s : State) {k : Nat} (h : 256 ≤ s.pc.toNat + k) : s.codeAt k = none := s.byteAt?_of_ge h

/-- The fetch gives the instruction the decoder reads at PC. -/
theorem fetchWith_ok {m : OpcodeMap} {s : State} {i : Instr} (h : decodeFrom m s.codeAt = .ok i) :
    fetchWith m s = .ok i := by rw [fetchWith, h]

/-- Where the decoder reads none, the fetch gives its fault. -/
theorem fetchWith_error {m : OpcodeMap} {s : State} {e : DecodeError} (h : decodeFrom m s.codeAt = .error e) :
    fetchWith m s = .error (fetchFault s e) := by rw [fetchWith, h]

theorem step_of_halted {s : State} (h : s.run = .halted) : step s = .fault .halted := by
  simp [step, stepWith, h]

theorem step_of_faulted {s : State} (h : s.run = .faulted) : step s = .fault (.faulted s.fault) := by
  simp [step, stepWith, h]

/-- A running step on a fetched instruction is exec of it. -/
theorem step_of_fetch_ok {s : State} {i : Instr} (hr : s.run = .running) (h : fetchWith opcodeMap s = .ok i) :
    step s = exec i s := by simp [step, stepWith, hr, h]

/-- A running step whose fetch faults takes the fault. -/
theorem step_of_fetch_error {s : State} {f : FaultRecord} (hr : s.run = .running)
    (h : fetchWith opcodeMap s = .error f) : step s = .next (s.takeFault f.cause f.info) := by
  simp [step, stepWith, hr, h, raise]

/-- A step that answers a next state was taken in RUNNING. -/
theorem running_of_step {s t : State} (h : step s = .next t) : s.run = .running := by
  cases hr : s.run with
  | running => rfl
  | halted => rw [step_of_halted hr] at h; exact absurd h (by simp)
  | faulted => rw [step_of_faulted hr] at h; exact absurd h (by simp)

/-- Everything a fetch can do: an instruction whose bytes all lie inside memory, or one of its three faults (R101 to
R103). -/
theorem fetch_cases (s : State) :
    (∃ i, fetchWith opcodeMap s = .ok i ∧ s.pc.toNat + i.op.width ≤ 256 ∧
      opFor opcodeMap (s.mem.read s.pc.toNat) = some i.op) ∨
    (fetchWith opcodeMap s = .error ⟨.boundsFetch, s.pc.toNat⟩ ∧ 256 ≤ s.pc.toNat) ∨
    (fetchWith opcodeMap s = .error ⟨.decode, (s.mem.read s.pc.toNat).toNat⟩ ∧ s.pc.toNat < 256 ∧
      opFor opcodeMap (s.mem.read s.pc.toNat) = none) ∨
    (fetchWith opcodeMap s = .error ⟨.boundsOperand, 256⟩ ∧ s.pc.toNat < 256 ∧
      ∃ o, opFor opcodeMap (s.mem.read s.pc.toNat) = some o ∧ 256 < s.pc.toNat + o.width) := by
  have far : ∀ k, s.pc.toNat + k = 256 → fetchFault s (.missingOperand k) = ⟨.boundsOperand, 256⟩ := fun k hk => by
    simp [fetchFault, hk]
  by_cases hpc : s.pc.toNat < 256
  · have h0 : s.codeAt 0 = some (s.mem.read s.pc.toNat) := s.codeAt_of_lt hpc
    cases ho : opFor opcodeMap (s.mem.read s.pc.toNat) with
    | none => exact .inr (.inr (.inl ⟨fetchWith_error (decodeFrom_unknown h0 ho), hpc, rfl⟩))
    | some o =>
      rcases Op.width_cases o with hw | hw | hw
      · exact .inl ⟨_, fetchWith_ok (decodeFrom_width_one h0 ho hw), by rw [Op.op_build]; omega, by rw [Op.op_build]⟩
      · have hd := decodeFrom_width_two h0 ho hw
        by_cases h1 : s.pc.toNat + 1 < 256
        · rw [s.codeAt_of_lt h1] at hd
          exact .inl ⟨_, fetchWith_ok hd, by rw [Op.op_build]; omega, by rw [Op.op_build]⟩
        · rw [s.codeAt_of_ge (by omega)] at hd
          exact .inr (.inr (.inr ⟨by rw [fetchWith_error hd, far 1 (by omega)], hpc, o, rfl, by omega⟩))
      · have hd := decodeFrom_width_three h0 ho hw
        by_cases h1 : s.pc.toNat + 1 < 256
        · rw [s.codeAt_of_lt h1] at hd
          by_cases h2 : s.pc.toNat + 2 < 256
          · rw [s.codeAt_of_lt h2] at hd
            exact .inl ⟨_, fetchWith_ok hd, by rw [Op.op_build]; omega, by rw [Op.op_build]⟩
          · rw [s.codeAt_of_ge (by omega)] at hd
            exact .inr (.inr (.inr ⟨by rw [fetchWith_error hd, far 2 (by omega)], hpc, o, rfl, by omega⟩))
        · rw [s.codeAt_of_ge (by omega)] at hd
          exact .inr (.inr (.inr ⟨by rw [fetchWith_error hd, far 1 (by omega)], hpc, o, rfl, by omega⟩))
  · have h0 : s.codeAt 0 = none := s.codeAt_of_ge (by omega)
    exact .inr (.inl ⟨fetchWith_error (decodeFrom_none h0), by omega⟩)

/-- Everything a step that answers a next state can do: the completed effect of the instruction at PC, whose bytes all
lie inside memory, or a fault of the fetch or of the instruction. -/
theorem step_cases {s t : State} (h : step s = .next t) :
    (∃ i, s.pc.toNat + i.op.width ≤ 256 ∧ opFor opcodeMap (s.mem.read s.pc.toNat) = some i.op ∧
      (Effect s i t ∨ ∃ c n, ExecFault s i c n ∧ t = s.takeFault c n)) ∨
    (256 ≤ s.pc.toNat ∧ t = s.takeFault .boundsFetch s.pc.toNat) ∨
    (opFor opcodeMap (s.mem.read s.pc.toNat) = none ∧ t = s.takeFault .decode (s.mem.read s.pc.toNat).toNat) ∨
    t = s.takeFault .boundsOperand 256 := by
  have hr := running_of_step h
  rcases fetch_cases s with ⟨i, hf, hw, ho⟩ | ⟨hf, hpc⟩ | ⟨hf, -, ho⟩ | ⟨hf, -, -⟩
  · rw [step_of_fetch_ok hr hf] at h
    exact .inl ⟨i, hw, ho, exec_cases h⟩
  · rw [step_of_fetch_error hr hf] at h
    exact .inr (.inl ⟨hpc, by simpa using h.symm⟩)
  · rw [step_of_fetch_error hr hf] at h
    exact .inr (.inr (.inl ⟨ho, by simpa using h.symm⟩))
  · rw [step_of_fetch_error hr hf] at h
    exact .inr (.inr (.inr (by simpa using h.symm)))

/-- A run of no steps stays where it is. -/
theorem runsTo_zero {s t : State} : RunsTo 0 s t ↔ t = s := by
  simp [RunsTo, runSteps, eq_comm]

/-- A longer run takes a first step and runs on from there. -/
theorem runsTo_succ {n : Nat} {s t : State} : RunsTo (n + 1) s t ↔ ∃ u, step s = .next u ∧ RunsTo n u t := by
  unfold RunsTo
  rw [runSteps]
  cases step s <;> simp

/-- The first step of a run of any core, by the outcome of that step. -/
theorem core_run_succ (M : Host.Core) (n : Nat) (s : M.State) :
    M.run (n + 1) s = match M.step s with
      | .next t => M.run n t
      | .fault f => .fault f
      | .refused r => .refused r := by
  cases h : M.step s <;> simp only [Host.Core.run, h]

/-- The run of Host/Core.lean is this run. -/
theorem core_run_eq_runSteps (n : Nat) (s : State) : Host.Core.run Sys2Proof.core n s = runSteps n s := by
  induction n generalizing s with
  | zero => rfl
  | succ n ih =>
    refine (core_run_succ Sys2Proof.core n s).trans ?_
    rw [runSteps]
    have hc : Host.Core.step Sys2Proof.core s = step s := rfl
    rw [hc]
    cases step s with
    | next t => exact ih t
    | fault f => rfl
    | refused r => rfl

/-- The induction over a run, once: what holds at the start and is kept by every step holds at the end. -/
theorem runsTo_induction {P : State → Prop} (hstep : ∀ s t, P s → step s = .next t → P t) {n : Nat} {s t : State}
    (h : RunsTo n s t) (hs : P s) : P t := by
  induction n generalizing s with
  | zero => rw [runsTo_zero] at h; exact h ▸ hs
  | succ n ih =>
    obtain ⟨u, hu, h⟩ := runsTo_succ.mp h
    exact ih h (hstep s u hs hu)

end Sys2Proof.Machine
end

