-- ==== Sys2Proof/Machine/Assembler.lean ====
section
/-! DEFINITION. The assembler text of an instruction (R90, R91). No machine behaviour depends on it. -/

namespace Sys2Proof.Machine

/-- The name of a register operand, R0 to R7; none for a byte that names no register (R90). -/
def regName (b : Byte) : Option String :=
  if b.toNat < 8 then some ("R" ++ toString b.toNat) else none

/-- The text of an instruction of format FR (R90). -/
def asmReg (mnemonic : String) (ra : Byte) : Option String := do
  let a ← regName ra
  return mnemonic ++ " " ++ a

/-- The text of an instruction of format FRR (R90). -/
def asmRegs (mnemonic : String) (ra rb : Byte) : Option String := do
  let a ← regName ra
  let b ← regName rb
  return mnemonic ++ " " ++ a ++ "," ++ b

/-- The assembler text of an instruction, in the source's spellings: the mnemonic, a space, and the operands separated
by a comma, an immediate in decimal (R90). An instruction that is not well formed has none. -/
def asmText : Instr → Option String
  | .hlt => some "HLT"
  | .ldi ra imm => do
    let a ← regName ra
    return "LDI " ++ a ++ "," ++ toString imm.toNat
  | .prn ra => asmReg "PRN" ra
  | .add ra rb => asmRegs "ADD" ra rb
  | .sub ra rb => asmRegs "SUB" ra rb
  | .mul ra rb => asmRegs "MUL" ra rb
  | .mod ra rb => asmRegs "MOD" ra rb
  | .and ra rb => asmRegs "AND" ra rb
  | .or ra rb => asmRegs "OR" ra rb
  | .xor ra rb => asmRegs "XOR" ra rb
  | .not ra => asmReg "NOT" ra
  | .shl ra rb => asmRegs "SHL" ra rb
  | .shr ra rb => asmRegs "SHR" ra rb
  | .cmp ra rb => asmRegs "CMP" ra rb
  | .jmp ra => asmReg "JMP" ra
  | .jeq ra => asmReg "JEQ" ra
  | .jne ra => asmReg "JNE" ra
  | .push ra => asmReg "PUSH" ra
  | .pop ra => asmReg "POP" ra
  | .call ra => asmReg "CALL" ra
  | .ret => some "RET"

end Sys2Proof.Machine
end

