-- ==== Sys2Proof/Tests/Slice0.lean ====
section
/-! SUPPORT. The model's own tests. Expected results are the vectors of spec/95_test_vectors.md (their names are cited),
the encodings of 30_encoding.md, or hand calculation from a rule; and, for every statement with hypotheses, a state and
operands that meet them. -/

namespace Sys2Proof.Tests

open Sys2Proof.Machine

/-! ### Helpers -/

/-- The reset state with registers set, PC moved and bytes stored at PC. -/
def at_ (pc : PcWord) (regs : List (Fin 8 × Byte)) (code : List Byte) : State :=
  let s := regs.foldl (fun s r => s.setReg r.1 r.2) (State.resetWith 0b000)
  { s with pc := pc, mem := s.mem.writeBytes pc.toNat code }

/-- The step is taken and the next state satisfies the test. -/
def stepsTo (s : State) (p : State → Bool) : Bool :=
  match step s with
  | .next t => p t
  | .fault _ => false
  | .refused _ => false

/-- The step is taken, the core goes on running, and register `r` and PC are as given. -/
def setsReg (s : State) (r : Fin 8) (v : Byte) (pc : PcWord) : Bool :=
  stepsTo s fun t => t.run == .running && t.getReg r == v && t.pc == pc

/-- The step raises the fault, and changes nothing but the run state and the fault record. -/
def faultsTo (s : State) (c : FaultCause) (n : Nat) : Bool :=
  stepsTo s fun t => t == { s with run := .faulted, fault := { cause := c, info := n } }

/-! ### WellFormed: an ill-formed term for each check -/

theorem test_wf_rejects_ra : Instr.wellFormed (.add 9 0) = false := by decide
theorem test_wf_rejects_rb : Instr.wellFormed (.add 0 9) = false := by decide
theorem test_wf_rejects_single : Instr.wellFormed (.push 8) = false := by decide
theorem test_wf_ignores_immediate : Instr.wellFormed (.ldi 7 200) = true := by decide

/-! ### Decoding: the words of R80 and R81, written out -/

theorem test_decode_hlt : decode [0b00000001] = .ok (.hlt, []) := by decide
theorem test_decode_ldi : decode [0b10000010, 0b00000000, 0b00001000] = .ok (.ldi 0 8, []) := by decide
theorem test_decode_prn : decode [0b01000111, 0b00000011] = .ok (.prn 3, []) := by decide
theorem test_decode_add : decode [0b10100000, 0b00000010, 0b00000101] = .ok (.add 2 5, []) := by decide
theorem test_decode_sub : decode [0b10100001, 0b00000010, 0b00000101] = .ok (.sub 2 5, []) := by decide
theorem test_decode_mul : decode [0b10100010, 0b00000010, 0b00000101] = .ok (.mul 2 5, []) := by decide
theorem test_decode_mod : decode [0b10100100, 0b00000010, 0b00000101] = .ok (.mod 2 5, []) := by decide
theorem test_decode_and : decode [0b10101000, 0b00000010, 0b00000101] = .ok (.and 2 5, []) := by decide
theorem test_decode_or : decode [0b10101010, 0b00000010, 0b00000101] = .ok (.or 2 5, []) := by decide
theorem test_decode_xor : decode [0b10101011, 0b00000010, 0b00000101] = .ok (.xor 2 5, []) := by decide
theorem test_decode_not : decode [0b01101001, 0b00000010] = .ok (.not 2, []) := by decide
theorem test_decode_shl : decode [0b10101100, 0b00000010, 0b00000101] = .ok (.shl 2 5, []) := by decide
theorem test_decode_shr : decode [0b10101101, 0b00000010, 0b00000101] = .ok (.shr 2 5, []) := by decide
theorem test_decode_cmp : decode [0b10100111, 0b00000010, 0b00000101] = .ok (.cmp 2 5, []) := by decide
theorem test_decode_jmp : decode [0b01010100, 0b00000011] = .ok (.jmp 3, []) := by decide
theorem test_decode_jeq : decode [0b01010101, 0b00000011] = .ok (.jeq 3, []) := by decide
theorem test_decode_jne : decode [0b01010110, 0b00000011] = .ok (.jne 3, []) := by decide
theorem test_decode_push : decode [0b01000101, 0b00000011] = .ok (.push 3, []) := by decide
theorem test_decode_pop : decode [0b01000110, 0b00000011] = .ok (.pop 3, []) := by decide
theorem test_decode_call : decode [0b01010000, 0b00000011] = .ok (.call 3, []) := by decide
theorem test_decode_ret : decode [0b00010001] = .ok (.ret, []) := by decide

/-- E1, R86: 0x00 is not NOP. -/
theorem test_decode_rejects_zero : decode [0x00, 0x00, 0x00] = .error (.unknownOpcode 0x00) := by decide
theorem test_decode_rejects_short : decode [0x82, 0x01] = .error (.missingOperand 2) := by decide
theorem test_decode_rejects_empty : decode [] = .error .noOpcode := by decide
/-- R73: a register operand is not masked. -/
theorem test_decode_keeps_index : decode [0xA0, 0x09, 0x00] = .ok (.add 9 0, []) := by decide
/-- S1's bytes of LDI R0,8 as a word of the opcode table: 0x82 + 0x00 * 2^8 + 0x08 * 2^16. -/
theorem test_tableWord_ldi : decodeTableWord 24 0x080082 = some (.ldi 0 8) := by decide
theorem test_tableWord_ignores_high : decodeTableWord 8 0xFF01 = some .hlt := by decide
theorem test_fetchWord_runs : setsReg (State.reset.withFetchWord 24 0x080082) 0 8 3 = true := by decide

/-! ### Single steps: the vectors of 95_test_vectors.md -/

/-- H2: HLT at 255 leaves PC at 256 and does not fault. -/
theorem test_hlt_H2 : stepsTo (at_ 255 [] [0x01]) (fun t => t.run == .halted && t.pc == 256) = true := by decide
/-- E9. -/
theorem test_ldi_E9 : setsReg (at_ 253 [] [0x82, 0x01, 0x09]) 1 9 256 = true := by decide
/-- E14: LDI may set SP. -/
theorem test_ldi_E14 : setsReg (at_ 0 [] [0x82, 0x07, 0x20]) 7 0x20 3 = true := by decide
/-- E5: the value is appended after what is already there. -/
theorem test_prn_E5 : stepsTo { at_ 0 [(0, 255)] [0x47, 0x00] with output := [1] }
    (fun t => t.output == [1, 255] && t.pc == 2) = true := by decide
/-- A1. -/
theorem test_add_A1 : setsReg (at_ 0 [(0, 255), (1, 2)] [0xA0, 0, 1]) 0 1 3 = true := by decide
/-- A5: source and destination the same. -/
theorem test_add_A5 : setsReg (at_ 0 [(0, 200)] [0xA0, 0, 0]) 0 144 3 = true := by decide
/-- A6: the operand order. -/
theorem test_sub_A6 : setsReg (at_ 0 [(0, 3), (1, 5)] [0xA1, 0, 1]) 0 254 3 = true := by decide
/-- A13. -/
theorem test_mul_A13 : setsReg (at_ 0 [(0, 255), (1, 255)] [0xA2, 0, 1]) 0 1 3 = true := by decide
/-- A19: unsigned. -/
theorem test_mod_A19 : setsReg (at_ 0 [(0, 255), (1, 16)] [0xA4, 0, 1]) 0 15 3 = true := by decide
/-- A22: the information word is rB's index. -/
theorem test_mod_A22 : faultsTo (at_ 0 [(0, 7), (1, 0)] [0xA4, 0, 1]) .arithModZero 1 = true := by decide
/-- A25. -/
theorem test_and_A25 : setsReg (at_ 0 [(0, 0xCC), (1, 0xAA)] [0xA8, 0, 1]) 0 0x88 3 = true := by decide
/-- A27. -/
theorem test_or_A27 : setsReg (at_ 0 [(0, 0xCC), (1, 0xAA)] [0xAA, 0, 1]) 0 0xEE 3 = true := by decide
/-- A29. -/
theorem test_xor_A29 : setsReg (at_ 0 [(0, 0xCC), (1, 0xAA)] [0xAB, 0, 1]) 0 0x66 3 = true := by decide
/-- A32. -/
theorem test_not_A32 : setsReg (at_ 0 [(0, 0x0F)] [0x69, 0]) 0 0xF0 2 = true := by decide
/-- A36: the top bit is lost. -/
theorem test_shl_A36 : setsReg (at_ 0 [(0, 0x81), (1, 1)] [0xAC, 0, 1]) 0 0x02 3 = true := by decide
/-- A40: the shift amount is not masked. -/
theorem test_shl_A40 : setsReg (at_ 0 [(0, 255), (1, 200)] [0xAC, 0, 1]) 0 0 3 = true := by decide
/-- A43: logical. -/
theorem test_shr_A43 : setsReg (at_ 0 [(0, 0x80), (1, 1)] [0xAD, 0, 1]) 0 0x40 3 = true := by decide
/-- A45: a shift by the width. -/
theorem test_shr_A45 : setsReg (at_ 0 [(0, 0xFF), (1, 8)] [0xAD, 0, 1]) 0 0 3 = true := by decide
/-- C4: unsigned. -/
theorem test_cmp_C4 : stepsTo (at_ 0 [(0, 0xFF), (1, 0x01)] [0xA7, 0, 1])
    (fun t => t.fl == 0b010 && t.pc == 3) = true := by decide
/-- C7: all three bits are replaced. -/
theorem test_cmp_C7 : stepsTo { at_ 0 [(0, 4), (1, 4)] [0xA7, 0, 1] with fl := 0b010 }
    (fun t => t.fl == 0b001) = true := by decide
/-- B1. -/
theorem test_jmp_B1 : stepsTo (at_ 6 [(3, 0x10)] [0x54, 3]) (fun t => t.pc == 0x10) = true := by decide
/-- B9. -/
theorem test_jmp_B9 : faultsTo (at_ 6 [] [0x54, 8]) .boundsRegister 8 = true := by decide
/-- B2. -/
theorem test_jeq_B2 : stepsTo { at_ 9 [(2, 20)] [0x55, 2] with fl := 0b001 } (fun t => t.pc == 20) = true := by decide
/-- B5: not taken at 254. -/
theorem test_jeq_B5 : stepsTo { at_ 254 [(2, 20)] [0x55, 2] with fl := 0b100 } (fun t => t.pc == 256) = true := by decide
/-- B6. -/
theorem test_jne_B6 : stepsTo { at_ 20 [(3, 12)] [0x56, 3] with fl := 0b100 } (fun t => t.pc == 12) = true := by decide
/-- B8. -/
theorem test_jne_B8 : stepsTo { at_ 20 [(3, 12)] [0x56, 3] with fl := 0b001 } (fun t => t.pc == 22) = true := by decide
/-- K2: PUSH R7 stores the decremented SP. -/
theorem test_push_K2 : stepsTo (at_ 0 [] [0x45, 7])
    (fun t => t.sp == 0xF3 && t.mem.read 0xF3 == 0xF3 && t.pc == 2) = true := by decide
/-- K4: the push overwrites its own operand byte's neighbour, the opcode. -/
theorem test_push_K4 : stepsTo (at_ 0 [(7, 1), (0, 5)] [0x45, 0])
    (fun t => t.sp == 0 && t.mem.read 0 == 5 && t.pc == 2) = true := by decide
/-- K6: POP R7 leaves the popped value plus 1. -/
theorem test_pop_K6 : setsReg { at_ 0 [(7, 0xF3)] [] with mem := [(0, 0x46), (1, 7), (0xF3, 0x40)] } 7 0x41 2 = true := by
  decide
/-- K7: the fault discards the load. -/
theorem test_pop_K7 : faultsTo { at_ 0 [(7, 0xF3)] [] with mem := [(0, 0x46), (1, 7), (0xF3, 0xFF)] }
    .boundsStack 255 = true := by decide
/-- K12: CALL R7 jumps to the new SP. -/
theorem test_call_K12 : stepsTo (at_ 6 [] [0x50, 7])
    (fun t => t.sp == 0xF3 && t.mem.read 0xF3 == 8 && t.pc == 0xF3) = true := by decide
/-- K14. -/
theorem test_call_K14 : faultsTo (at_ 254 [(1, 11)] [0x50, 1]) .boundsRetAddr 256 = true := by decide
/-- K18. -/
theorem test_ret_K18 : stepsTo { at_ 0x20 [(7, 0xF3)] [] with mem := [(0x20, 0x11), (0xF3, 8)] }
    (fun t => t.pc == 8 && t.sp == 0xF4 && t.mem.read 0xF3 == 8) = true := by decide
/-- K19. -/
theorem test_ret_K19 : faultsTo { at_ 0x20 [(7, 0xFF)] [] with mem := [(0x20, 0x11), (0xFF, 8)] }
    .boundsStack 255 = true := by decide

/-! ### Memory, the ports and the assembler text -/

theorem test_write_zero_unlists : Memory.write [(3, 5), (7, 1)] 3 0 = [(7, 1)] := by decide
theorem test_write_sorts : Memory.write [(3, 5), (7, 1)] 4 2 = [(3, 5), (4, 2), (7, 1)] := by decide
theorem test_boot_loads : (State.boot 0b000 [0x01, 0x00, 0x02]).map State.mem = some [(0, 0x01), (2, 0x02)] := by decide
theorem test_status_running : State.reset.status = { run := .running, fault := { cause := .none, info := 0 } } := by decide
/-- R90: the source's spellings. -/
theorem test_asm_ldi : asmText (.ldi 0 8) = some "LDI R0,8" := by decide
theorem test_asm_mul : asmText (.mul 0 1) = some "MUL R0,R1" := by decide
theorem test_asm_rejects_ill_formed : asmText (.prn 8) = none := by decide
/-- R201's numbers. -/
theorem test_codes : [FaultCause.none, .decode, .boundsFetch, .boundsOperand, .boundsRegister, .boundsStack,
    .boundsRetAddr, .arithModZero, .arithUnsupported].map FaultCause.code = [0, 1, 2, 3, 4, 5, 6, 7, 8] := by decide

/-! ### Witnesses: for every statement with hypotheses, a state and operands that meet them, each clause at a boundary -/

/-- exec answers a next state that satisfies the test. -/
def execTo (i : Instr) (s : State) (p : State → Bool) : Bool :=
  match exec i s with
  | .next t => p t
  | .fault _ => false
  | .refused _ => false

/-- exec raises the fault, and changes nothing but the run state and the fault record. -/
def execFaultsTo (i : Instr) (s : State) (c : FaultCause) (n : Nat) : Bool :=
  execTo i s fun t => t == { s with run := .faulted, fault := { cause := c, info := n } }

/-- The clauses of a two-register rule at their boundary values: rA = 8, rB = 255, and rA = rB = 7. -/
def binaryClauses (mk : Byte → Byte → Instr) (a result : Byte) : Bool :=
  let s := at_ 0 [(7, a)] []
  execFaultsTo (mk 8 0) s .boundsRegister 8 && execFaultsTo (mk 7 255) s .boundsRegister 255 &&
    execTo (mk 7 7) s fun t => t.getReg 7 == result && t.pc == 3

/-- The register check of a one-register rule at its boundary values: rA = 8 and rA = 255. -/
def registerClauses (mk : Byte → Instr) : Bool :=
  execFaultsTo (mk 8) State.reset .boundsRegister 8 && execFaultsTo (mk 255) State.reset .boundsRegister 255

theorem witness_DecodeOfEncodeGivesInstruction : opcodeMap.legal = true := by decide

theorem witness_EncodeOfDecodeGivesBytes : decodeWith opcodeMap [0x82, 7, 255, 1] = .ok (.ldi 7 255, [1]) := by decide

theorem witness_UnlistedOpcodeBytesFault :
    let s := at_ 255 [] [0xFF]
    s.run = .running ∧ s.pc.toNat < 256 ∧ s.mem.read s.pc.toNat = 0xFF ∧ faultsTo s .decode 255 = true := by decide

theorem witness_StepRunsDecodedInstruction :
    let s := at_ 254 [] [0x47, 7]
    s.run = .running ∧ decode s.codeBytes = .ok (.prn 7, []) := by decide

theorem witness_StoredInstructionRuns : (at_ 253 [] [0xA0, 7, 255]).run = .running ∧
    StoredAtPc (.add 7 255) (at_ 253 [] [0xA0, 7, 255]) := ⟨rfl, by unfold StoredAtPc; decide⟩

theorem witness_FetchReadsOnlyInstructionBytes :
    let s := at_ 4 [] [0x47, 7, 1]
    let s' := at_ 4 [] [0x47, 7, 2]
    s'.pc = s.pc ∧ opFor opcodeMap (s.mem.read s.pc.toNat) = some .prn ∧
      (∀ k < Op.prn.width, s'.byteAt? (s.pc.toNat + k) = s.byteAt? (s.pc.toNat + k)) ∧ s'.mem ≠ s.mem := by decide

/-- E4; a DECODE at 255; E7 and a PRN at 255; E11 at 253; a MOD at 253; K3 and K13; K14; K19; K8; K7. -/
theorem witness_StepReportsFirstFault :
    faultsTo (at_ 256 [] []) .boundsFetch 256 = true ∧
    faultsTo (at_ 255 [] [0x00]) .decode 0 = true ∧
    faultsTo (at_ 254 [] [0x82, 1]) .boundsOperand 256 = true ∧
    faultsTo (at_ 255 [] [0x47]) .boundsOperand 256 = true ∧
    faultsTo (at_ 253 [] [0xA0, 9, 10]) .boundsRegister 9 = true ∧
    faultsTo (at_ 253 [] [0xA4, 0, 7]) .boundsRegister 9 = false ∧
    faultsTo (at_ 253 [(7, 0)] [0xA4, 0, 7]) .arithModZero 7 = true ∧
    faultsTo (at_ 254 [(7, 0)] [0x45, 0]) .boundsStack 0 = true ∧
    faultsTo (at_ 254 [(7, 0)] [0x50, 0]) .boundsStack 0 = true ∧
    faultsTo (at_ 254 [(7, 1)] [0x50, 0]) .boundsRetAddr 256 = true ∧
    faultsTo (at_ 255 [(7, 255)] [0x11]) .boundsStack 255 = true ∧
    faultsTo (at_ 254 [(7, 255)] [0x46, 6]) .boundsStack 255 = true ∧
    faultsTo { at_ 254 [(7, 3)] [] with mem := [(3, 255), (254, 0x46), (255, 7)] } .boundsStack 255 = true := by decide

theorem witness_RegisterOperandsAreChecked :
    (Instr.regOperands (.add 7 8)).find? (fun x => decide (8 ≤ x.toNat)) = some 8 ∧
    (Instr.regOperands (.add 255 8)).find? (fun x => decide (8 ≤ x.toNat)) = some 255 ∧
    State.reset.run = .running ∧ Instr.wellFormed (.ldi 7 255) = true ∧ Instr.wellFormed .ret = true := by decide

theorem witness_StoppedStatesAreTerminal : State.reset.halt.run = .halted ∧
    (State.reset.takeFault .decode 0).run = .faulted ∧ RunsTo 0 State.reset.halt State.reset.halt := ⟨rfl, rfl, rfl⟩

theorem witness_StepHasThreeOutcomes : State.reset.run = .running ∧
    stepsTo (at_ 0 [] [0x47, 0]) (fun t => t.run == .running) = true ∧
    stepsTo (at_ 255 [] [0x01]) (fun t => t.run == .halted) = true ∧
    stepsTo State.reset (fun t => t.run == .faulted) = true := by decide

theorem witness_FaultsArePrecise : ∃ s t, s.run = .running ∧ step s = .next t ∧ t.run = .faulted :=
  ⟨State.reset, _, rfl, rfl, rfl⟩

theorem witness_ProgramLoad :
    256 < (List.replicate 257 (1 : Byte)).length ∧ (List.replicate 256 (1 : Byte)).length ≤ 256 ∧
    0 < (List.replicate 256 (1 : Byte)).length ∧ ([] : List Byte).length ≤ 0 := by
  simp only [List.length_replicate, List.length_nil]; decide

theorem witness_BootMeetsInvariant : (State.boot 0b111 [0x01]).isSome = true := by decide

theorem witness_StepKeepsInvariant : (at_ 255 [] [0x01]).Inv ∧ ∃ t, step (at_ 255 [] [0x01]) = .next t :=
  ⟨{ memory := by decide, pcRange := by decide, noFault := fun _ => rfl, faulted := fun h => absurd h (by decide) },
    _, rfl⟩

/-- An ADD ending at 255, a JEQ at 254 not taken and taken, and a RET at 255. -/
theorem witness_PcAdvancesByWidthOrToByte :
    stepsTo (at_ 253 [] [0xA0, 0, 0]) (fun t => t.run != .faulted && t.pc == 256) = true ∧
    opFor opcodeMap ((at_ 253 [] [0xA0, 0, 0]).mem.read 253) = some .add ∧
    stepsTo (at_ 254 [(0, 255)] [0x55, 0]) (fun t => t.run != .faulted && t.pc == 256) = true ∧
    stepsTo { at_ 254 [(0, 255)] [0x55, 0] with fl := 0b001 } (fun t => t.run != .faulted && t.pc == 255) = true ∧
    opFor opcodeMap ((at_ 254 [(0, 255)] [0x55, 0]).mem.read 254) = some .jeq ∧
    stepsTo (at_ 255 [] [0x11]) (fun t => t.run != .faulted && t.pc == 0) = true ∧
    opFor opcodeMap ((at_ 255 [] [0x11]).mem.read 255) = some .ret := by decide

theorem witness_OnlyCmpWritesFlags : State.reset.run = .running ∧
    execTo (.cmp 0 7) State.reset (fun t => t.run != .faulted && t.fl == 0b100) = true ∧
    execTo (.add 0 7) State.reset (fun t => t.fl == State.reset.fl) = true := by decide

theorem witness_OnlyPrnEmits : State.reset.run = .running ∧
    execTo (.prn 7) State.reset (fun t => t.run != .faulted && t.output == [0xF4]) = true ∧
    execTo (.push 7) State.reset (fun t => t.output == []) = true := by decide

theorem witness_NoInstructionReadsGOrL :
    (0b110 : FlagsWord).getLsbD 0 = State.reset.fl.getLsbD 0 ∧ (0b110 : FlagsWord) ≠ State.reset.fl := by decide

theorem witness_LdiLoadsImmediate : registerClauses (fun r => .ldi r 255) = true ∧
    execTo (.ldi 7 255) State.reset (fun t => t.getReg 7 == 255 && t.pc == 3) = true := by decide

theorem witness_PrnEmitsRegister : registerClauses .prn = true ∧
    execTo (.prn 7) State.reset (fun t => t.output == [0xF4] && t.pc == 2) = true := by decide

theorem witness_AddWritesSum : binaryClauses .add 255 254 = true := by decide
theorem witness_SubWritesDifference : binaryClauses .sub 255 0 = true := by decide
theorem witness_MulWritesLowProduct : binaryClauses .mul 255 1 = true := by decide
theorem witness_AndWritesBitwiseAnd : binaryClauses .and 0x5A 0x5A = true := by decide
theorem witness_OrWritesBitwiseOr : binaryClauses .or 0x5A 0x5A = true := by decide
theorem witness_XorWritesBitwiseXor : binaryClauses .xor 0x5A 0 = true := by decide
/-- A shift by 7 and by 8, the two sides of the width. -/
theorem witness_ShlWritesShiftedProduct :
    binaryClauses .shl 7 128 = true ∧ binaryClauses .shl 8 0 = true := by decide
theorem witness_ShrWritesFloorQuotient :
    binaryClauses .shr 7 0 = true ∧ binaryClauses .shr 8 0 = true ∧
    setsReg (at_ 0 [(0, 255), (1, 7)] [0xAD, 0, 1]) 0 1 3 = true := by decide
theorem witness_ModWritesRemainderOrFaults : binaryClauses .mod 1 0 = true ∧
    execFaultsTo (.mod 0 7) (at_ 0 [(7, 0)] []) .arithModZero 7 = true := by decide

theorem witness_NotWritesComplement : registerClauses .not = true ∧
    execTo (.not 7) State.reset (fun t => t.getReg 7 == 0x0B && t.pc == 2) = true := by decide

/-- Equal, greater by one, less by one, and both index checks. -/
theorem witness_CmpSetsExactlyOneFlag :
    execFaultsTo (.cmp 8 0) State.reset .boundsRegister 8 = true ∧
    execFaultsTo (.cmp 7 8) State.reset .boundsRegister 8 = true ∧
    execTo (.cmp 7 7) State.reset (fun t => t.fl == 0b001) = true ∧
    execTo (.cmp 0 7) (at_ 0 [(0, 128), (7, 127)] []) (fun t => t.fl == 0b010) = true ∧
    execTo (.cmp 7 0) (at_ 0 [(0, 128), (7, 127)] []) (fun t => t.fl == 0b100) = true := by decide

theorem witness_JmpGoesToRegister : registerClauses .jmp = true ∧
    execTo (.jmp 7) (at_ 0 [(7, 255)] []) (fun t => t.pc == 255) = true := by decide

theorem witness_JeqJumpsWhenEqual : registerClauses .jeq = true ∧
    execTo (.jeq 7) { State.reset with fl := 0b001 } (fun t => t.pc == 0xF4) = true ∧
    execTo (.jeq 7) { State.reset with fl := 0b110 } (fun t => t.pc == 2) = true := by decide

theorem witness_JneJumpsWhenNotEqual : registerClauses .jne = true ∧
    execTo (.jne 7) { State.reset with fl := 0b110 } (fun t => t.pc == 0xF4) = true ∧
    execTo (.jne 7) { State.reset with fl := 0b001 } (fun t => t.pc == 2) = true := by decide

/-- SP = 0 and SP = 1, the two sides of the check. -/
theorem witness_PushStoresBelowSp : registerClauses .push = true ∧
    execFaultsTo (.push 7) (at_ 0 [(7, 0)] []) .boundsStack 0 = true ∧
    execTo (.push 0) (at_ 0 [(7, 1), (0, 9)] []) (fun t => t.sp == 0 && t.mem.read 0 == 9) = true ∧
    execTo (.push 7) (at_ 0 [(7, 255)] []) (fun t => t.sp == 254 && t.mem.read 254 == 254) = true := by decide

/-- SP = 255 and SP = 254, and for POP R7 the loaded values 255 and 254. -/
theorem witness_PopLoadsFromSp : registerClauses .pop = true ∧
    execFaultsTo (.pop 6) (at_ 0 [(7, 255)] []) .boundsStack 255 = true ∧
    execTo (.pop 6) { at_ 0 [(7, 254)] [] with mem := [(254, 3)] } (fun t => t.sp == 255 && t.getReg 6 == 3) = true ∧
    execFaultsTo (.pop 7) { at_ 0 [(7, 255)] [] with mem := [(255, 255)] } .boundsStack 255 = true ∧
    execTo (.pop 7) { at_ 0 [(7, 255)] [] with mem := [(255, 254)] } (fun t => t.sp == 255) = true := by decide

/-- SP = 0; PC = 254 and PC = 253, the two sides of the return address check. -/
theorem witness_CallPushesReturnAddress : registerClauses .call = true ∧
    execFaultsTo (.call 7) (at_ 254 [(7, 0)] []) .boundsStack 0 = true ∧
    execFaultsTo (.call 0) (at_ 254 [(7, 1)] []) .boundsRetAddr 256 = true ∧
    execTo (.call 0) (at_ 253 [(7, 1), (0, 255)] [])
      (fun t => t.sp == 0 && t.mem.read 0 == 255 && t.pc == 255) = true := by decide

theorem witness_RetPopsReturnAddress :
    execFaultsTo .ret (at_ 0 [(7, 255)] []) .boundsStack 255 = true ∧
    execTo .ret { at_ 0 [(7, 254)] [] with mem := [(254, 255)] } (fun t => t.sp == 255 && t.pc == 255) = true := by decide

/-- Every instruction of the frames answers a next state, completed and faulted. -/
theorem witness_RegisterWritersFrame : ∀ ra ∈ ([7, 8] : List Byte),
    ∀ i ∈ [Instr.ldi ra 7, .add ra 7, .sub ra 7, .mul ra 7, .mod ra 7, .and ra 7, .or ra 7, .xor ra 7, .not ra,
      .shl ra 7, .shr ra 7], execTo i State.reset (fun t => (t.run == .running) == (ra == 7)) = true := by decide

theorem witness_CompareBranchPrintFrame : ∀ ra ∈ ([7, 8] : List Byte),
    ∀ i ∈ [Instr.cmp ra 7, .prn ra, .jmp ra, .jeq ra, .jne ra],
      execTo i State.reset (fun t => (t.run == .running) == (ra == 7)) = true := by decide

/-- The common fault of every instruction with operand bytes, at the two boundary addresses: fetched so that its last byte
would lie at 256 it faults, one address lower it does not. -/
theorem witness_OperandFetchChecked : opcodeMap.legal = true ∧
    ∀ o ∈ Op.all, o.width ≠ 1 →
      faultsTo (at_ (BitVec.ofNat 9 (257 - o.width)) [] [opcodeMap o]) .boundsOperand 256 = true ∧
      faultsTo (at_ 255 [] [opcodeMap o]) .boundsOperand 256 = true ∧
      faultsTo (at_ (BitVec.ofNat 9 (256 - o.width)) [] [opcodeMap o]) .boundsOperand 256 = false := by decide

/-- HLT and RET run at 255. -/
theorem witness_RunsWhereFetched : opcodeMap.legal = true ∧
    stepsTo (at_ 255 [] [0x01]) (fun t => t.run == .halted && t.pc == 256) = true ∧
    stepsTo (at_ 255 [] [0x11]) (fun t => t.run == .running) = true := by decide

theorem witness_HltFrame : execTo .hlt State.reset (fun t => t.run == .halted) = true := by decide

theorem witness_PopRetFrame : ∀ sp ∈ ([254, 255] : List Byte), ∀ i ∈ [Instr.pop 0, .ret],
    execTo i (at_ 0 [(7, sp)] []) (fun t => (t.run == .running) == (sp == 254)) = true := by decide

theorem witness_PushCallFrame : ∀ sp ∈ ([0, 1] : List Byte), ∀ i ∈ [Instr.push 0, .call 0],
    execTo i (at_ 0 [(7, sp)] []) (fun t => (t.run == .running) == (sp == 1)) = true := by decide

theorem witness_ReadReturnsMostRecentWrite : Memory.wf [(0, 1), (255, 2)] = true := by decide

theorem witness_FetchSeesPushedByte :
    let s := at_ 0 [(0, 0xFF), (1, 0x01), (7, 1)] []
    s.mem.wf = true ∧ s.run = .running ∧ s.regs[7] ≠ 0 ∧ opFor opcodeMap (s.getReg 0) = none ∧
      opFor opcodeMap (s.getReg 1) = some .hlt ∧ Op.hlt.width = 1 := by decide

theorem witness_PushThenPopRestores :
    let s := at_ 0 [(6, 9), (7, 1)] []
    s.mem.wf = true ∧ s.regs[7] ≠ 0 ∧
      execTo (.push 6) s (fun t => execTo (.pop 6) t fun u => u.getReg 6 == 9 && u.sp == 1) = true := by decide

theorem witness_CallThenRetReturns :
    let s := at_ 253 [(7, 1)] []
    s.mem.wf = true ∧ s.regs[7] ≠ 0 ∧ s.pc.toNat + 2 < 256 ∧
      execTo (.call 7) s (fun t => execTo .ret t fun u => u.pc == 255 && u.sp == 1) = true := by decide

theorem witness_JumpToSelfNeverEnds : (at_ 254 [(0, 254)] [0x54, 0]).run = .running ∧
    StoredAtPc (.jmp 0) (at_ 254 [(0, 254)] [0x54, 0]) ∧
    (at_ 254 [(0, 254)] [0x54, 0]).regs[0].toNat = (at_ 254 [(0, 254)] [0x54, 0]).pc.toNat :=
  ⟨rfl, by unfold StoredAtPc; decide, rfl⟩

theorem witness_EndedRunHasOneResult : ∃ t, EndsIn 1 (at_ 0 [] [0x01]) t := ⟨_, rfl, by decide⟩

theorem witness_ObservationOnlyWhenStopped : State.reset.observe.isNone = true ∧
    (State.reset.halt.observe.map Observation.pc) = some 0 := by decide

end Sys2Proof.Tests
end

/-! SUPPORT. The proofs of the family 10_state: the invariant of the machine, what a completed instruction does to PC, FL
and the output stream, and that no instruction reads FL.G, FL.L or the output stream. -/

namespace Sys2Proof.Machine

/-! ### What a completed instruction does to PC, memory, FL and the output stream -/

section
variable {s t : State} {i : Instr}

/-- An advance that stays within 0 to 256 is exact: the 9-bit addition does not wrap (R28). -/
theorem pc_add_toNat {pc : PcWord} {w : Nat} (h : pc.toNat + w ≤ 256) :
    (pc + BitVec.ofNat 9 w).toNat = pc.toNat + w := by
  rw [BitVec.toNat_add, BitVec.toNat_ofNat]
  omega

/-- `Effect.pc_eq` in numbers, for an instruction whose bytes all lie inside memory (R28, R104). -/
theorem Effect.pc_toNat (h : Effect s i t) (hw : s.pc.toNat + i.op.width ≤ 256) :
    (i.op ∉ [Op.jmp, .call, .ret] ∧ t.pc.toNat = s.pc.toNat + i.op.width) ∨
    (i.op ∈ [Op.jmp, .jeq, .jne, .call, .ret] ∧ t.pc.toNat < 256) := by
  rcases h.pc_eq with ⟨hi, hpc⟩ | ⟨hi, v, hpc⟩
  · exact .inl ⟨hi, by rw [hpc, pc_add_toNat hw]⟩
  · have hv := v.isLt
    exact .inr ⟨hi, by rw [hpc, BitVec.toNat_setWidth]; omega⟩

/-- A completed instruction leaves PC at most 256 (R28). -/
theorem Effect.pc_le (h : Effect s i t) (hw : s.pc.toNat + i.op.width ≤ 256) : t.pc.toNat ≤ 256 := by
  rcases h.pc_toNat hw with ⟨-, hpc⟩ | ⟨-, hpc⟩ <;> omega

/-- A completed instruction keeps memory, but for PUSH and CALL, which store one byte (R54). -/
theorem Effect.mem_eq (h : Effect s i t) : t.mem = s.mem ∨ ∃ a v : Byte, t.mem = s.mem.write a.toNat v := by
  cases h with
  | push v => exact .inr ⟨_, v, rfl⟩
  | call v w hpc => exact .inr ⟨_, v, rfl⟩
  | _ => exact .inl rfl

/-- A completed instruction keeps memory canonical (R35). -/
theorem Effect.mem_wf (h : Effect s i t) (hs : s.mem.wf = true) : t.mem.wf = true := by
  rcases h.mem_eq with hm | ⟨a, v, hm⟩
  · rwa [hm]
  · rw [hm]
    exact Memory.wf_write_byte hs a v

/-- A completed instruction other than CMP keeps FL (R123). -/
theorem Effect.fl_eq (h : Effect s i t) (hop : i.op ≠ .cmp) : t.fl = s.fl := by
  cases h with
  | cmp a b => exact absurd rfl hop
  | _ => rfl

/-- A completed CMP leaves the result of a comparison in FL (R150). -/
theorem Effect.fl_of_cmp {ra rb : Byte} (h : Effect s (.cmp ra rb) t) : ∃ a b, t.fl = compareFlags a b := by
  cases h with
  | cmp a b => exact ⟨a, b, rfl⟩
  | alu _ _ _ hi => simp at hi
  | jump _ hi => simp at hi
  | fallThrough hi => simp at hi

/-- A completed instruction other than PRN keeps the output stream (R42). -/
theorem Effect.output_eq (h : Effect s i t) (hi : ∀ ra, i ≠ .prn ra) : t.output = s.output := by
  cases h with
  | prn r hr => exact absurd rfl (hi _)
  | _ => rfl

/-- A completed PRN appends the value of its register (R112). -/
theorem Effect.output_of_prn {ra : Byte} (h : Effect s (.prn ra) t) :
    ∃ hr : ra.toNat < 8, t.output = s.output ++ [s.regs[ra.toNat]] := by
  cases h with
  | prn r hr =>
    obtain ⟨n, hn⟩ := r
    obtain rfl : n = ra.toNat := hr
    exact ⟨hn, rfl⟩
  | alu _ _ _ hi => simp at hi
  | jump _ hi => simp at hi
  | fallThrough hi => simp at hi

/-- CMP is the only instruction of its mnemonic. -/
theorem eq_cmp_of_op (hop : i.op = .cmp) : ∃ ra rb, i = .cmp ra rb := by
  cases i with
  | cmp ra rb => exact ⟨ra, rb, rfl⟩
  | _ => simp [Instr.op] at hop

end

/-! ### The invariant -/

section
variable {s t : State} {i : Instr}

/-- Right after reset the invariant holds (R230). -/
theorem State.resetWith_inv (flInit : FlagsWord) : (State.resetWith flInit).Inv where
  memory := reset_memory_wf flInit
  pcRange := by simp
  noFault _ := rfl
  faulted h := by simp at h

/-- Putting another canonical memory in place keeps the invariant. -/
theorem State.Inv.withMem (hs : s.Inv) {m : Memory} (hm : m.wf = true) : State.Inv { s with mem := m } where
  memory := hm
  pcRange := hs.pcRange
  noFault := hs.noFault
  faulted := hs.faulted

/-- Taking a fault whose pair R201 lists keeps the invariant. -/
theorem State.Inv.takeFault (hs : s.Inv) {c : FaultCause} {n : Nat} (hd : FaultRecord.Documented ⟨c, n⟩) :
    (s.takeFault c n).Inv where
  memory := hs.memory
  pcRange := hs.pcRange
  noFault h := absurd rfl h
  faulted _ := hd

/-- What an instruction whose bytes all lie inside memory raises is a pair of R201: for BOUNDS_RETADDR that leaves
PC + 2 = 256 as the only value. -/
theorem ExecFault.documented {c : FaultCause} {n : Nat} (h : ExecFault s i c n)
    (hw : s.pc.toNat + i.op.width ≤ 256) : FaultRecord.Documented ⟨c, n⟩ := by
  cases c with
  | boundsRegister => exact h
  | boundsStack => exact h.2
  | boundsRetAddr =>
    obtain ⟨hop, hn, hge⟩ := h
    have hwidth : i.op.width = 2 := by rw [hop]; rfl
    show n = 256
    omega
  | arithModZero => exact h.2
  | _ => exact h.elim

/-- A completed instruction keeps the invariant of a running state. -/
theorem Effect.inv (h : Effect s i t) (hr : s.run = .running) (hw : s.pc.toNat + i.op.width ≤ 256) (hs : s.Inv) :
    t.Inv where
  memory := h.mem_wf hs.memory
  pcRange := h.pc_le hw
  noFault _ := by rw [h.fault_eq, hs.noFault (by simp [hr])]
  faulted hf := by
    rcases h.run_eq with ht | ⟨-, ht⟩ <;> simp [ht, hr] at hf

end

/-- Settles O18, by the cases of `step_cases`: a completed effect, a fault of the instruction, or one of the three faults
of the fetch. -/
theorem stepKeepsInvariant : Obligations.StepKeepsInvariant := by
  intro s t hs h
  rcases step_cases h with ⟨i, hw, -, he | ⟨c, n, hf, rfl⟩⟩ | ⟨hpc, rfl⟩ | ⟨ho, rfl⟩ | rfl
  · exact he.inv (running_of_step h) hw hs
  · exact hs.takeFault (hf.documented hw)
  · exact hs.takeFault (Nat.le_antisymm hs.pcRange hpc)
  · exact hs.takeFault ⟨(s.mem.read s.pc.toNat).isLt, by rwa [BitVec.ofNat_toNat, BitVec.setWidth_eq]⟩
  · exact hs.takeFault rfl

/-- Settles O16. -/
theorem resetMeetsInvariant : Obligations.ResetMeetsInvariant := State.resetWith_inv

/-- Settles O17: the load only stores bytes, which keeps memory canonical. -/
theorem bootMeetsInvariant : Obligations.BootMeetsInvariant := by
  intro flInit program s h
  obtain ⟨-, hs⟩ := Option.ite_none_right_eq_some.mp h
  obtain rfl := Option.some.inj hs
  exact (State.resetWith_inv flInit).withMem (Memory.wf_writeBytes (reset_memory_wf flInit) 0 program)

/-! ### PC, FL and the output stream -/

/-- Settles O19: a step that does not fault is a completed effect of the instruction at PC, whose bytes lie inside
memory. -/
theorem pcAdvancesByWidthOrToByte : Obligations.PcAdvancesByWidthOrToByte := by
  intro s t o _ h hnf ho
  have hfault : ∀ c n, t ≠ s.takeFault c n := by
    rintro c n rfl
    exact hnf rfl
  rcases step_cases h with ⟨i, hw, hi, he | ⟨c, n, -, ht⟩⟩ | ⟨-, ht⟩ | ⟨-, ht⟩ | ht
  · obtain rfl : i.op = o := Option.some.inj (hi.symm.trans ho)
    refine ⟨he.pc_le hw, ?_⟩
    rcases he.pc_toNat hw with ⟨hop, hpc⟩ | ⟨hop, hpc⟩
    · refine ⟨fun _ => hpc, fun hj => .inr ?_, fun hj => absurd hj hop⟩
      have hwidth : i.op.width = 2 := by
        simp only [List.mem_cons, List.not_mem_nil, or_false] at hj
        rcases hj with hj | hj <;> rw [hj] <;> rfl
      rw [hpc, hwidth]
    · exact ⟨fun hn => absurd hop hn, fun _ => .inl hpc, fun _ => hpc⟩
  all_goals exact absurd ht (hfault _ _)

/-- Settles O20: a completed CMP leaves a comparison's result in FL, everything else and a fault keep FL. -/
theorem onlyCmpWritesFlags : Obligations.OnlyCmpWritesFlags := by
  intro i s t _ h
  rcases exec_cases h with he | ⟨c, n, -, rfl⟩
  · refine ⟨he.fl_eq, fun hop _ => ?_⟩
    obtain ⟨ra, rb, rfl⟩ := eq_cmp_of_op hop
    obtain ⟨a, b, hfl⟩ := he.fl_of_cmp
    rw [hfl]
    exact compareFlags_one_hot a b
  · exact ⟨fun _ => rfl, fun _ hnf => absurd rfl hnf⟩

/-- Settles O21: a completed PRN appends its register's value, everything else and a fault keep the output stream. -/
theorem onlyPrnEmits : Obligations.OnlyPrnEmits := by
  refine ⟨rfl, fun i s t _ h => ?_⟩
  rcases exec_cases h with he | ⟨c, n, -, rfl⟩
  · refine ⟨he.output_eq, ?_⟩
    rintro ra rfl _
    exact he.output_of_prn
  · exact ⟨fun _ => rfl, fun _ _ hnf => absurd rfl hnf⟩

/-! ### What no instruction reads

An instruction commutes with a change of FL that keeps what the branches read of it, and with output already in the
stream: the change can be made before the instruction or after it. -/

/-- FL changed by `g`, and the output stream behind the values of `p`. -/
def State.disguise (g : FlagsWord → FlagsWord) (p : List Byte) (s : State) : State :=
  { s with fl := g s.fl, output := p ++ s.output }

/-- The same change on the next state that an instruction answers. -/
def disguiseNext (g : FlagsWord → FlagsWord) (p : List Byte) : Result → Result
  | .next t => .next (t.disguise g p)
  | .fault r => .fault r
  | .refused r => .refused r

section
variable {g : FlagsWord → FlagsWord} {p : List Byte} {s : State} {ra rb : Byte}

/-- A value emitted behind `p` lands behind `p`. -/
theorem State.emit_disguise (v : Byte) : (s.disguise g p).emit v = (s.emit v).disguise g p := by
  simp [State.emit, State.disguise]

theorem raise_disguise (c : FaultCause) (n : Nat) : raise c n (s.disguise g p) = disguiseNext g p (raise c n s) := rfl

/-- A register operand commutes with the change if what follows does. -/
theorem withReg_disguise {k k' : Fin 8 → Result} (hk : ∀ r, k' r = disguiseNext g p (k r)) :
    withReg ra (s.disguise g p) k' = disguiseNext g p (withReg ra s k) := by
  by_cases ha : ra.toNat < 8
  · rw [withReg_of_lt ha, withReg_of_lt ha, hk]
  · rw [withReg_of_ge (by omega), withReg_of_ge (by omega)]
    rfl

theorem withRegs_disguise {k k' : Fin 8 → Fin 8 → Result} (hk : ∀ a b, k' a b = disguiseNext g p (k a b)) :
    withRegs ra rb (s.disguise g p) k' = disguiseNext g p (withRegs ra rb s k) :=
  withReg_disguise fun a => withReg_disguise fun b => hk a b

/-- Moving SP down commutes with the change if what follows does. -/
theorem withSpDown_disguise {k k' : State → Result} (hk : ∀ u, k' (u.disguise g p) = disguiseNext g p (k u)) :
    withSpDown (s.disguise g p) k' = disguiseNext g p (withSpDown s k) := by
  have hsp : (s.disguise g p).sp = s.sp := rfl
  by_cases h0 : s.sp = 0
  · rw [withSpDown_of_zero (hsp.trans h0), withSpDown_of_zero h0]
    rfl
  · rw [withSpDown_of_ne (hsp ▸ h0), withSpDown_of_ne h0]
    exact hk (s.setSp (s.sp - 1))

/-- Moving SP up commutes with the change if what follows does. -/
theorem withSpUp_disguise {cur : State} {k k' : State → Result}
    (hk : ∀ u, k' (u.disguise g p) = disguiseNext g p (k u)) :
    withSpUp (s.disguise g p) (cur.disguise g p) k' = disguiseNext g p (withSpUp s cur k) := by
  have hsp : (cur.disguise g p).sp = cur.sp := rfl
  by_cases h0 : cur.sp = 255
  · rw [withSpUp_of_max (hsp.trans h0), withSpUp_of_max h0]
    rfl
  · rw [withSpUp_of_ne (hsp ▸ h0), withSpUp_of_ne h0]
    exact hk (cur.setSp (cur.sp + 1))

theorem aluBinary_disguise (f : Byte → Byte → Byte) :
    aluBinary f ra rb (s.disguise g p) = disguiseNext g p (aluBinary f ra rb s) :=
  withRegs_disguise fun _ _ => rfl

theorem branchIf_disguise (taken : Bool) :
    branchIf taken ra (s.disguise g p) = disguiseNext g p (branchIf taken ra s) :=
  withReg_disguise fun _ => by cases taken <;> rfl

/-- Every instruction commutes with the change, if the change keeps FL.E, which JEQ and JNE read, and what CMP writes. -/
theorem exec_disguise (i : Instr) (hE : flagE (g s.fl) = flagE s.fl)
    (hcmp : i.op = .cmp → ∀ a b, g (compareFlags a b) = compareFlags a b) :
    exec i (s.disguise g p) = disguiseNext g p (exec i s) := by
  have hflag : flagE (s.disguise g p).fl = flagE s.fl := hE
  cases i with
  | hlt => rfl
  | ldi ra imm => simp only [exec, execLdi]; exact withReg_disguise fun _ => rfl
  | prn ra =>
    simp only [exec, execPrn]
    refine withReg_disguise fun a => ?_
    rw [State.emit_disguise]
    rfl
  | add ra rb => exact aluBinary_disguise _
  | sub ra rb => exact aluBinary_disguise _
  | mul ra rb => exact aluBinary_disguise _
  | mod ra rb =>
    simp only [exec, execMod]
    refine withRegs_disguise fun a b => ?_
    have hb : (s.disguise g p).getReg b = s.getReg b := rfl
    by_cases h0 : s.getReg b = 0
    · rw [if_pos h0, if_pos (hb.trans h0), raise_disguise]
    · rw [if_neg h0, if_neg (hb ▸ h0)]
      rfl
  | and ra rb => exact aluBinary_disguise _
  | or ra rb => exact aluBinary_disguise _
  | xor ra rb => exact aluBinary_disguise _
  | not ra => simp only [exec, execNot]; exact withReg_disguise fun _ => rfl
  | shl ra rb => exact aluBinary_disguise _
  | shr ra rb => exact aluBinary_disguise _
  | cmp ra rb =>
    simp only [exec, execCmp]
    refine withRegs_disguise fun a b => ?_
    simp [disguiseNext, State.disguise, State.setFl, State.advance, State.getReg, hcmp rfl]
  | jmp ra => exact branchIf_disguise _
  | jeq ra => rw [exec_jeq, exec_jeq, execJeq, execJeq, hflag, branchIf_disguise]
  | jne ra => rw [exec_jne, exec_jne, execJne, execJne, hflag, branchIf_disguise]
  | push ra => simp only [exec, execPush]; exact withReg_disguise fun _ => withSpDown_disguise fun _ => rfl
  | pop ra =>
    simp only [exec, execPop]
    exact withReg_disguise fun a => withSpUp_disguise (cur := s.setReg a (s.memRead s.sp)) fun _ => rfl
  | call ra =>
    simp only [exec, execCall]
    refine withReg_disguise fun a => withSpDown_disguise fun u => ?_
    have hpc : (s.disguise g p).pc = s.pc := rfl
    by_cases h0 : s.pc.toNat + 2 ≥ Config.memSize
    · simp only [hpc, if_pos h0, raise_disguise]
    · simp only [hpc, if_neg h0]
      rfl
  | ret => simp only [exec, execRet]; exact withSpUp_disguise fun _ => rfl

/-- CMP overwrites FL without reading it, and where an operand faults FL stays as it was (R150, R202). -/
theorem exec_cmp_setFl (f : FlagsWord) {t : State} (h : exec (.cmp ra rb) s = .next t) :
    exec (.cmp ra rb) (s.setFl f) = .next (t.setFl f) ∨ exec (.cmp ra rb) (s.setFl f) = .next t := by
  rw [exec_cmp, execCmp] at h ⊢
  by_cases ha : ra.toNat < 8
  · by_cases hb : rb.toNat < 8
    · rw [withRegs_of_lt ha hb] at h ⊢
      exact .inr h
    · rw [withRegs_of_ge_right ha (by omega)] at h ⊢
      obtain rfl : s.takeFault .boundsRegister rb.toNat = t := by simpa using h
      exact .inl rfl
  · rw [withRegs_of_ge_left (by omega)] at h ⊢
    obtain rfl : s.takeFault .boundsRegister ra.toNat = t := by simpa using h
    exact .inl rfl

/-- An instruction appends at most one value to the output stream (R42). -/
theorem exec_output_append {i : Instr} {t : State} (h : exec i s = .next t) :
    ∃ e : List Byte, e.length ≤ 1 ∧ t.output = s.output ++ e := by
  rcases exec_cases h with he | ⟨c, n, -, rfl⟩
  · by_cases hi : ∃ ra, i = .prn ra
    · obtain ⟨ra, rfl⟩ := hi
      obtain ⟨_, ho⟩ := he.output_of_prn
      exact ⟨_, by simp, ho⟩
    · exact ⟨[], by simp, by simpa using he.output_eq (not_exists.mp hi)⟩
  · exact ⟨[], by simp, by simp⟩

/-- An instruction run with `p` already in the output stream does as it does without. -/
theorem exec_output_behind {i : Instr} {t : State} (h : exec i s = .next t) (p : List Byte) :
    exec i { s with output := p ++ s.output } = .next { t with output := p ++ t.output } := by
  have hd := exec_disguise (g := id) (p := p) (s := s) i rfl fun _ _ _ => rfl
  rw [h] at hd
  exact hd

end

/-- Settles O22: CMP overwrites FL, and every other instruction commutes with the change of FL. -/
theorem noInstructionReadsGOrL : Obligations.NoInstructionReadsGOrL := by
  intro i s f hf
  obtain ⟨t, ht⟩ := exec_total i s
  refine ⟨t, ht, ?_⟩
  by_cases hop : i.op = .cmp
  · obtain ⟨ra, rb, rfl⟩ := eq_cmp_of_op hop
    exact (exec_cmp_setFl f ht).imp id fun h => ⟨hop, h⟩
  · have hd := exec_disguise (g := fun _ => f) (p := []) (s := s) i hf fun h => absurd h hop
    rw [ht] at hd
    exact .inl hd

/-- Settles O23: run the instruction with an empty output stream; what it then holds is what the instruction appends
behind any stream. -/
theorem noInstructionReadsOutput : Obligations.NoInstructionReadsOutput := by
  intro i s o
  obtain ⟨u, hu⟩ := exec_total i { s with output := [] }
  obtain ⟨e, he, huo⟩ := exec_output_append hu
  obtain rfl : u.output = e := huo
  have behind : ∀ p, exec i { s with output := p } = .next { u with output := p ++ u.output } := fun p => by
    simpa using exec_output_behind hu p
  exact ⟨_, u.output, behind s.output, he, rfl, behind o⟩

/-! ### The observation port -/

/-- A stopped core shows PC, the registers, FL and every memory byte (R44). -/
theorem State.observe_of_stopped {s : State} (h : s.run ≠ .running) :
    s.observe = some ⟨s.pc, s.regs, s.fl, (List.range Config.memSize).map s.mem.read⟩ := by
  cases hr : s.run with
  | running => exact absurd hr h
  | halted => simp [State.observe, hr]
  | faulted => simp [State.observe, hr]

/-- Settles O56. -/
theorem observationOnlyWhenStopped : Obligations.ObservationOnlyWhenStopped := by
  intro s
  refine ⟨fun hr => by simp [State.observe, hr], fun hr => ⟨_, State.observe_of_stopped hr, rfl, rfl, rfl, ?_, ?_⟩⟩
  · simp [Config.memSize]
  · intro a ha
    simp [Config.memSize, ha]

end Sys2Proof.Machine

/-! SUPPORT. The proofs of the family 20_memory: what the fetch reads, the frames of the instructions that write a
register, FL, the output stream, PC or the stack, and that a read and a fetch see the latest store. -/

namespace Sys2Proof

/-- Two sources of bytes that agree on the opcode, and on the bytes of the instruction where the opcode names one,
decode to the same: no other byte is read (R103). -/
theorem decodeFrom_congr {m : OpcodeMap} {get get' : Nat → Option Byte} (h0 : get' 0 = get 0)
    (h : ∀ b o, get 0 = some b → opFor m b = some o → ∀ k < o.width, get' k = get k) :
    decodeFrom m get' = decodeFrom m get := by
  cases hb : get 0 with
  | none => rw [decodeFrom_none hb, decodeFrom_none (h0.trans hb)]
  | some b =>
    cases ho : opFor m b with
    | none => rw [decodeFrom_unknown hb ho, decodeFrom_unknown (h0.trans hb) ho]
    | some o =>
      have hk := h b o hb ho
      rcases o.width_cases with hw | hw | hw
      · rw [decodeFrom_width_one hb ho hw, decodeFrom_width_one (h0.trans hb) ho hw]
      · rw [decodeFrom_width_two hb ho hw, decodeFrom_width_two (h0.trans hb) ho hw, hk 1 (by omega)]
      · rw [decodeFrom_width_three hb ho hw, decodeFrom_width_three (h0.trans hb) ho hw, hk 1 (by omega),
          hk 2 (by omega)]

/-- The numbers of the registers a completed instruction may write (R111, R120, R180 to R183). -/
def Instr.dests : Instr → List Nat
  | .ldi ra _ | .add ra _ | .sub ra _ | .mul ra _ | .mod ra _ | .and ra _ | .or ra _ | .xor ra _ | .not ra | .shl ra _
  | .shr ra _ => [ra.toNat]
  | .hlt | .prn _ | .cmp _ _ | .jmp _ | .jeq _ | .jne _ => []
  | .push _ | .call _ | .ret => [7]
  | .pop ra => [ra.toNat, 7]

end Sys2Proof

namespace Sys2Proof.Machine

/-! ### What the fetch reads -/

section
variable {m : OpcodeMap} {s s' : State}

/-- A fetch is what the decoder reads at PC, at the same PC. -/
theorem fetchWith_congr (hpc : s'.pc = s.pc) (hd : decodeFrom m s'.codeAt = decodeFrom m s.codeAt) :
    fetchWith m s' = fetchWith m s := by
  cases h : decodeFrom m s.codeAt with
  | ok i => rw [fetchWith_ok h, fetchWith_ok (hd.trans h)]
  | error e =>
    rw [fetchWith_error h, fetchWith_error (hd.trans h)]
    cases e <;> simp [fetchFault, hpc]

/-- The opcode byte is the byte at PC. -/
theorem State.codeAt_zero_some {b : Byte} (h : s.codeAt 0 = some b) : b = s.mem.read s.pc.toNat :=
  (Option.ite_none_right_eq_some.mp h).2 |> Option.some.inj |>.symm

/-- A running step on an unrecognized byte raises DECODE with it (R102). -/
theorem stepFaults_of_unknown (hr : s.run = .running) (hpc : s.pc.toNat < 256)
    (ho : opFor opcodeMap (s.mem.read s.pc.toNat) = none) :
    StepFaults s .decode (s.mem.read s.pc.toNat).toNat :=
  step_of_fetch_error hr (fetchWith_error (decodeFrom_unknown (s.codeAt_of_lt (k := 0) hpc) ho))

/-- A running step on the opcode of a one-byte instruction runs it (R100). -/
theorem step_of_width_one {o : Op} (hr : s.run = .running) (hpc : s.pc.toNat < 256)
    (ho : opFor opcodeMap (s.mem.read s.pc.toNat) = some o) (hw : o.width = 1) : step s = exec (o.build 0 0) s :=
  step_of_fetch_ok hr (fetchWith_ok (decodeFrom_width_one (s.codeAt_of_lt (k := 0) hpc) ho hw))

end

/-- Settles O8: the decoder looks at no byte beyond the width of the opcode at PC, and a fetch fault holds no other byte
than the opcode. -/
theorem fetchReadsOnlyInstructionBytes : Obligations.FetchReadsOnlyInstructionBytes := by
  intro s s' o hpc ho hbytes
  have hcode : ∀ k < o.width, s'.codeAt k = s.codeAt k := fun k hk => by
    rw [State.codeAt, hpc]
    exact hbytes k hk
  have hpos : 0 < o.width := by rcases o.width_cases with hw | hw | hw <;> omega
  refine fetchWith_congr hpc (decodeFrom_congr (hcode 0 hpos) fun b o' hb ho' => ?_)
  rw [State.codeAt_zero_some hb, ho] at ho'
  obtain rfl := Option.some.inj ho'
  exact hcode

/-! ### Frames -/

section
variable {s t : State} {i : Instr}

/-- A register write leaves every other register alone (R20). -/
theorem State.regs_setReg_of_ne {r : Fin 8} (v : Byte) {j : Nat} (hj : j < 8) (h : j ≠ r.val) :
    (s.setReg r v).regs[j] = s.regs[j] := Vector.getElem_set_ne r.isLt hj h.symm

theorem State.regs_setSp_of_ne (v : Byte) {j : Nat} (hj : j < 8) (h : j ≠ 7) : (s.setSp v).regs[j] = s.regs[j] :=
  State.regs_setReg_of_ne v hj h

/-- A completed instruction keeps every register outside its destinations. -/
theorem Effect.regs_eq (h : Effect s i t) {j : Nat} (hj : j < 8) (hd : j ∉ i.dests) : t.regs[j] = s.regs[j] := by
  cases h with
  | ldi r hr => exact State.regs_setReg_of_ne _ hj (by simpa [Instr.dests, hr] using hd)
  | alu r v hr hi =>
    have hne : j ≠ r.val := by
      simp only [List.mem_cons, List.not_mem_nil, or_false] at hi
      rcases hi with rfl | rfl | rfl | rfl | rfl | rfl | rfl | rfl | rfl <;> simpa [Instr.dests, hr] using hd
    exact State.regs_setReg_of_ne v hj hne
  | not r v hr => exact State.regs_setReg_of_ne v hj (by simpa [Instr.dests, hr] using hd)
  | pop r v w hr =>
    obtain ⟨hr', hsp⟩ : j ≠ r.val ∧ j ≠ 7 := by simpa [Instr.dests, hr] using hd
    exact (State.regs_setSp_of_ne w hj hsp).trans (State.regs_setReg_of_ne v hj hr')
  | push v => exact State.regs_setSp_of_ne _ hj (by simpa [Instr.dests] using hd)
  | call v w hpc => exact State.regs_setSp_of_ne _ hj (by simpa [Instr.dests] using hd)
  | ret v w => exact State.regs_setSp_of_ne _ hj (by simpa [Instr.dests] using hd)
  | _ => rfl

/-- Only PUSH and CALL store, and only at the new SP (R54). -/
theorem Effect.mem_cases (h : Effect s i t) :
    t.mem = s.mem ∨ (i.op ∈ [Op.push, .call] ∧ ∃ v, t.mem = s.mem.write (s.sp - 1).toNat v) := by
  cases h with
  | push v => exact .inr ⟨by simp [Instr.op], v, rfl⟩
  | call v w hpc => exact .inr ⟨by simp [Instr.op], v, rfl⟩
  | _ => exact .inl rfl

/-- A completed instruction other than HLT keeps the run state and the fault record (R38). -/
theorem Effect.status_eq (h : Effect s i t) (hop : i.op ≠ .hlt) : t.run = s.run ∧ t.fault = s.fault := by
  rcases h.run_eq with hr | ⟨rfl, -⟩
  · exact ⟨hr, h.fault_eq⟩
  · exact absurd rfl hop

/-- The frame of every instruction but HLT, PUSH and CALL: its destinations change, FL by CMP and the output stream by
PRN, and a fault changes only the run state and the fault record. -/
theorem storesNothingFrame {dests : List Nat} {flags output : Bool} (hd : i.dests = dests)
    (ho : i.op ∉ [Op.hlt, .push, .call] ∧ (i.op = .cmp → flags = true) ∧ (i.op = .prn → output = true)) :
    StoresNothingFrame i dests flags output := by
  subst hd
  obtain ⟨hop, hcmp, hprn⟩ := ho
  intro s t h
  rcases exec_cases h with he | ⟨c, n, -, rfl⟩
  · refine ⟨fun j hj hjd => he.regs_eq hj hjd, fun hf => he.fl_eq fun hc => ?_, fun hf => he.output_eq ?_, fun a => ?_,
      .inl (he.status_eq fun hh => hop (by simp [hh]))⟩
    · simp [hcmp hc] at hf
    · rintro ra rfl
      simp [hprn rfl] at hf
    · rcases he.mem_cases with hm | ⟨hmem, -⟩
      · rw [hm]
      · exact absurd (List.mem_cons_of_mem _ hmem) hop
  · exact ⟨fun _ _ _ => rfl, fun _ => rfl, fun _ => rfl, fun _ => rfl, .inr ⟨_, rfl⟩⟩

end

/-- Settles O45: each of the eleven has rA as its one destination. -/
theorem registerWritersFrame : Obligations.RegisterWritersFrame := by
  intro ra rb i hi
  simp only [List.mem_cons, List.not_mem_nil, or_false] at hi
  rcases hi with rfl | rfl | rfl | rfl | rfl | rfl | rfl | rfl | rfl | rfl | rfl <;>
    exact storesNothingFrame rfl (by simp [Instr.op])

/-- Settles O46: CMP, PRN and the branches have no destination. -/
theorem compareBranchPrintFrame : Obligations.CompareBranchPrintFrame := by
  intro ra rb
  refine ⟨storesNothingFrame rfl (by simp [Instr.op]), storesNothingFrame rfl (by simp [Instr.op]), fun i hi => ?_⟩
  simp only [List.mem_cons, List.not_mem_nil, or_false] at hi
  rcases hi with rfl | rfl | rfl <;> exact storesNothingFrame rfl (by simp [Instr.op])

/-- Settles O48: the destinations of POP are rA and R7, that of RET is R7. -/
theorem popRetFrame : Obligations.PopRetFrame :=
  ⟨fun _ => storesNothingFrame rfl (by simp [Instr.op]), storesNothingFrame rfl (by simp [Instr.op])⟩

/-- Settles O49: a completed PUSH or CALL has R7 as its one destination and stores one byte, at the new SP; a fault
stores nothing. -/
theorem pushCallFrame : Obligations.PushCallFrame := by
  intro ra i hi s t h
  obtain ⟨hd, hhlt, hcmp, hprn⟩ : i.dests = [7] ∧ i.op ≠ .hlt ∧ i.op ≠ .cmp ∧ ∀ r, i ≠ .prn r := by
    simp only [List.mem_cons, List.not_mem_nil, or_false] at hi
    rcases hi with rfl | rfl <;> simp [Instr.dests, Instr.op]
  rcases exec_cases h with he | ⟨c, n, -, rfl⟩
  · refine ⟨fun j hj hj7 => he.regs_eq hj (by simpa [hd] using hj7), he.fl_eq hcmp, he.output_eq hprn, fun a ha => ?_,
      .inl (he.status_eq hhlt)⟩
    rcases he.mem_cases with hm | ⟨-, v, hm⟩
    · rw [hm]
    · rw [hm, Memory.read_write_of_ne _ v ha]
  · exact ⟨fun _ _ _ => rfl, rfl, rfl, fun _ _ => rfl, .inr ⟨_, rfl⟩⟩

/-! ### Reads and fetches after stores -/

/-- Settles O50, by induction on the writes from the last one back: the last write gives the byte if it is to the
address, and leaves what the earlier ones gave if it is not. -/
theorem readReturnsMostRecentWrite : Obligations.ReadReturnsMostRecentWrite := by
  intro m writes a hm
  induction writes using List.reverseRecOn with
  | nil => exact ⟨hm, rfl⟩
  | append_singleton ws w ih =>
    obtain ⟨hwf, hread⟩ := ih
    simp only [List.foldl_append, List.foldl_cons, List.foldl_nil, List.reverse_append, List.reverse_singleton,
      List.singleton_append, List.find?_cons]
    refine ⟨Memory.wf_write_byte hwf w.1 w.2, ?_⟩
    rw [Memory.read_write hwf]
    by_cases hw : w.1 = a
    · simp [hw]
    · have hne : a.toNat ≠ w.1.toNat := fun h => hw (BitVec.eq_of_toNat_eq h.symm)
      simpa [hw, hne] using hread

/-- A PUSH of a register other than R7, from an SP that is not 0, stores its value at the new SP (R180). -/
theorem exec_push_of_ne {s : State} {ra : Byte} (ha : ra.toNat < 8) (h7 : ra.toNat ≠ 7) (hsp : s.sp ≠ 0) :
    exec (.push ra) s =
      .next (((s.setSp (s.sp - 1)).memWrite (s.sp - 1) s.regs[ra.toNat]).advance 2) := by
  have hv : (s.setSp (s.sp - 1)).regs[ra.toNat] = s.regs[ra.toNat] := State.regs_setSp_of_ne _ ha h7
  rw [exec_push, execPush, withReg_of_lt ha, withSpDown_of_ne hsp, State.sp_setSp, State.getReg_mk, hv]

/-- Settles O51: memory is one array, so the byte at the new SP is the one PUSH stored. -/
theorem fetchSeesPushedByte : Obligations.FetchSeesPushedByte := by
  intro s ra ha hm hr hsp h7
  refine ⟨_, exec_push_of_ne ha h7 hsp, ?_⟩
  intro u
  have hu : u.run = .running := hr
  have hpc : u.pc.toNat = (s.sp - 1).toNat := by
    have hlt := (s.sp - 1).isLt
    show (BitVec.setWidth 9 (s.setSp (s.sp - 1)).sp).toNat = _
    rw [State.sp_setSp, BitVec.toNat_setWidth]
    omega
  have hlt : u.pc.toNat < 256 := hpc ▸ (s.sp - 1).isLt
  have hbyte : u.mem.read u.pc.toNat = s.regs[ra.toNat] := by
    rw [hpc]
    exact Memory.read_write_same hm _ _
  rw [← hbyte]
  exact ⟨stepFaults_of_unknown hu hlt, fun o => step_of_width_one hu hlt⟩

end Sys2Proof.Machine

/-! SUPPORT. The proofs of the family 30_encoding: decoding and encoding are inverse to each other under every legal
opcode map, the opcode table, what a step does with the bytes at PC, and the check of the register operands. -/

namespace Sys2Proof

/-! ### Decode and encode -/

section
variable {m : OpcodeMap} {i : Instr}

/-- The converse of `decodeFrom_ok`: a source that gives the opcode byte of an instruction and then its operand bytes
decodes to it (R71, R72). -/
theorem decodeFrom_of_bytes {get : Nat → Option Byte} {b : Byte} (h0 : get 0 = some b) (ho : opFor m b = some i.op)
    (hk : ∀ k < i.operands.length, get (k + 1) = i.operands[k]?) : decodeFrom m get = .ok i := by
  have hbuild := i.build_operands
  have hlen := i.operands_length
  match hops : i.operands with
  | [] =>
    rw [hops] at hbuild hlen
    rw [decodeFrom_width_one h0 ho hlen.symm]
    exact congrArg _ hbuild
  | [op1] =>
    rw [hops] at hbuild hlen hk
    have h1 : get 1 = some op1 := hk 0 (by simp)
    rw [decodeFrom_width_two h0 ho hlen.symm, h1]
    exact congrArg _ hbuild
  | [op1, op2] =>
    rw [hops] at hbuild hlen hk
    have h1 : get 1 = some op1 := hk 0 (by simp)
    have h2 : get 2 = some op2 := hk 1 (by simp)
    rw [decodeFrom_width_three h0 ho hlen.symm, h1, h2]
    exact congrArg _ hbuild
  | op1 :: op2 :: op3 :: ops =>
    rw [hops, List.length_cons, List.length_cons, List.length_cons] at hlen
    rcases i.op.width_cases with hw | hw | hw <;> omega

/-- Decoding a list reads the instruction at its front and drops as many bytes as the instruction has (R70). -/
theorem decodeWith_eq_ok {bytes rest : List Byte} :
    decodeWith m bytes = .ok (i, rest) ↔
      decodeFrom m (fun k => bytes[k]?) = .ok i ∧ bytes.drop i.op.width = rest := by
  unfold decodeWith
  cases decodeFrom m (fun k => bytes[k]?) with
  | error e => simp
  | ok j =>
    simp only [Except.ok.injEq, Prod.mk.injEq]
    exact and_congr_right fun hj => by rw [hj]

/-- The bytes of an instruction are as many as its width (R70). -/
theorem drop_width_encodeWith (m : OpcodeMap) (i : Instr) (rest : List Byte) :
    (encodeWith m i ++ rest).drop i.op.width = rest := by
  rw [← i.operands_length, encodeWith, List.cons_append, List.drop_succ_cons, List.drop_left]

end

/-- Settles O1: the opcode byte finds the mnemonic again because a legal map is injective, and the operand bytes are
those that follow. -/
theorem decodeOfEncodeGivesInstruction : Obligations.DecodeOfEncodeGivesInstruction := by
  intro m hm i rest
  refine decodeWith_eq_ok.mpr ⟨decodeFrom_of_bytes (b := m i.op) rfl (opFor_opcode hm i.op) fun k hk => ?_,
    drop_width_encodeWith m i rest⟩
  show (i.operands ++ rest)[k]? = i.operands[k]?
  exact List.getElem?_append_left hk

/-- Settles O2: the first byte is the opcode of the mnemonic found for it, and the bytes after it begin with the operand
bytes read. -/
theorem encodeOfDecodeGivesBytes : Obligations.EncodeOfDecodeGivesBytes := by
  intro m bytes rest i h
  obtain ⟨hd, hrest⟩ := decodeWith_eq_ok.mp h
  obtain ⟨b, h0, ho, hk⟩ := decodeFrom_ok hd
  obtain ⟨tail, rfl⟩ : ∃ tail, bytes = b :: tail := List.head?_eq_some_iff.mp (List.head?_eq_getElem? ▸ h0)
  obtain ⟨after, rfl⟩ : i.operands <+: tail :=
    List.prefix_iff_getElem?.mpr fun k hlt => by simpa [hlt] using hk k hlt
  have hbytes : b :: (i.operands ++ after) = encodeWith m i ++ after := by
    rw [encodeWith, opFor_some ho, List.cons_append]
  rw [hbytes, drop_width_encodeWith] at hrest
  rw [hbytes, hrest]

/-! ### The opcode table -/

/-- The map of R80 is legal (R82). -/
theorem opcodeMap_legal : opcodeMap.legal = true := by decide

/-- `decodeOfEncodeGivesInstruction` for the map of R80. -/
theorem decode_encode (i : Instr) (rest : List Byte) : decode (encode i ++ rest) = .ok (i, rest) :=
  decodeOfEncodeGivesInstruction opcodeMap opcodeMap_legal i rest

/-- Settles O3, by evaluating the table. -/
theorem tableOpcodesAreLegalMap : Obligations.TableOpcodesAreLegalMap := ⟨opcodeMap_legal, rfl, rfl⟩

/-- Settles O5: each word is the encoding of its instruction, and `decode_encode` reads it back. -/
theorem writtenOutWordsDecode : Obligations.WrittenOutWordsDecode :=
  ⟨decode_encode (.ldi 0 8) [], decode_encode (.prn 0) [0b00000001], decode_encode .hlt [],
    decode_encode (.add 0 1) [], decode_encode (.cmp 2 3) [], decode_encode (.jeq 2) [], decode_encode (.call 1) [],
    decode_encode .ret []⟩

/-- A byte is no opcode exactly when the table of opcodes does not list it (R86). -/
theorem opFor_eq_none_iff_not_mem {m : OpcodeMap} {b : Byte} : opFor m b = none ↔ b ∉ Op.all.map m := by
  simp [opFor_eq_none, Op.mem_all]

/-- The byte values that a legal map recognizes are its 21 opcodes, each once. -/
theorem recognized_perm {m : OpcodeMap} (hm : m.legal = true) :
    ((List.range 256).filter fun n => (opFor m (BitVec.ofNat 8 n)).isSome).Perm
      (Op.all.map fun o => (m o).toNat) := by
  have hall : Op.all.Nodup := by decide
  have hinj : Function.Injective fun o => (m o).toNat := fun _ _ h =>
    OpcodeMap.legal_injective hm (BitVec.eq_of_toNat_eq h)
  refine (List.perm_ext_iff_of_nodup (List.nodup_range.filter _) (hall.map hinj)).mpr fun n => ?_
  simp only [List.mem_filter, List.mem_range, List.mem_map, Option.isSome_iff_exists]
  constructor
  · rintro ⟨hn, o, ho⟩
    exact ⟨o, o.mem_all, by rw [opFor_some ho, BitVec.toNat_ofNat, Nat.mod_eq_of_lt hn]⟩
  · rintro ⟨o, -, rfl⟩
    exact ⟨(m o).isLt, o, by rw [BitVec.ofNat_toNat, BitVec.setWidth_eq, opFor_opcode hm o]⟩

/-- Every legal map leaves 256 - 21 byte values unrecognized (R86). -/
theorem unrecognized_length {m : OpcodeMap} (hm : m.legal = true) :
    ((List.range 256).filter fun n => (opFor m (BitVec.ofNat 8 n)).isNone).length = 235 := by
  have hsome := (recognized_perm hm).length_eq
  have hsplit := (List.range 256).length_eq_length_filter_add fun n => (opFor m (BitVec.ofNat 8 n)).isSome
  simp only [Option.not_isSome, List.length_range] at hsplit
  simp only [List.length_map, Op.all, List.length_cons, List.length_nil] at hsome
  omega

end Sys2Proof

namespace Sys2Proof.Machine

/-- Settles O4: a byte at PC that is not in the table is no opcode, and the fetch faults on it. -/
theorem unlistedOpcodeBytesFault : Obligations.UnlistedOpcodeBytesFault := by
  refine ⟨unrecognized_length opcodeMap_legal, by decide, fun s hr hpc hb => ?_⟩
  exact stepFaults_of_unknown hr hpc (opFor_eq_none_iff_not_mem.mpr hb)

/-- Settles O7: the bytes the fetch reads at PC are those of the encoding. -/
theorem storedInstructionRuns : Obligations.StoredInstructionRuns := by
  intro s i hr hstored
  have hcode : ∀ k < (encode i).length, s.codeAt k = (encode i)[k]? := fun k hk => by
    obtain ⟨hlt, hbyte⟩ := hstored k hk
    rw [s.codeAt_of_lt hlt, hbyte, List.getElem?_eq_getElem hk]
  have hget : decodeFrom opcodeMap s.codeAt = .ok i :=
    decodeFrom_of_bytes (hcode 0 (Nat.succ_pos _)) (opFor_opcode opcodeMap_legal i.op) fun k hk =>
      hcode (k + 1) (Nat.succ_lt_succ hk)
  exact step_of_fetch_ok hr (fetchWith_ok hget)

/-! ### The check of the register operands -/

/-- The first of these operand bytes that names no register (R105). -/
def firstBadRegister (ops : List Byte) : Option Byte := ops.find? fun x => decide (8 ≤ x.toNat)

/-- A well-formed instruction has no such operand. -/
theorem firstBadRegister_of_wellFormed {i : Instr} (h : i.wellFormed = true) :
    firstBadRegister i.regOperands = none := by
  simpa [firstBadRegister, Instr.wellFormed, isRegIndex] using h

/-- The answer at `s` is not the fault BOUNDS_REGISTER, if `s` is running. -/
def NoRegisterFault (s : State) (r : Result) : Prop :=
  s.run = .running → ∀ n, r ≠ .next (s.takeFault .boundsRegister n)

/-- The answer at `s` is BOUNDS_REGISTER for the first operand byte that names no register, and where every one names
a register it is not BOUNDS_REGISTER (R105, R205). -/
def RegistersChecked (ops : List Byte) (s : State) (r : Result) : Prop :=
  match firstBadRegister ops with
  | some b => r = .next (s.takeFault .boundsRegister b.toNat)
  | none => NoRegisterFault s r

section
variable {s t : State}

theorem noRegisterFault_next (h : t.run = s.run ∨ t.run = .halted) : NoRegisterFault s (.next t) := by
  intro hr n heq
  obtain rfl := Host.Outcome.next.inj heq
  rw [hr] at h
  simp at h

theorem noRegisterFault_raise {c : FaultCause} (h : c ≠ .boundsRegister) (n : Nat) :
    NoRegisterFault s (raise c n s) := by
  intro _ n' heq
  have hf := congrArg State.fault (Host.Outcome.next.inj heq)
  exact h (congrArg FaultRecord.cause hf)

theorem noRegisterFault_withSpDown {k : State → Result} (h : NoRegisterFault s (k (s.setSp (s.sp - 1)))) :
    NoRegisterFault s (withSpDown s k) := by
  by_cases h0 : s.sp = 0
  · rw [withSpDown_of_zero h0]
    exact noRegisterFault_raise (by decide) 0
  · rwa [withSpDown_of_ne h0]

theorem noRegisterFault_withSpUp {cur : State} {k : State → Result}
    (h : NoRegisterFault s (k (cur.setSp (cur.sp + 1)))) : NoRegisterFault s (withSpUp s cur k) := by
  by_cases h0 : cur.sp = 255
  · rw [withSpUp_of_max h0]
    exact noRegisterFault_raise (by decide) 255
  · rwa [withSpUp_of_ne h0]

/-- A register operand is checked before those of what follows. -/
theorem registersChecked_cons {b : Byte} {ops : List Byte} {k : Fin 8 → Result}
    (h : ∀ a, RegistersChecked ops s (k a)) : RegistersChecked (b :: ops) s (withReg b s k) := by
  by_cases hb : b.toNat < 8
  · have hfirst : firstBadRegister (b :: ops) = firstBadRegister ops :=
      List.find?_cons_of_neg (by simpa using hb)
    rw [withReg_of_lt hb, RegistersChecked, hfirst]
    exact h _
  · have hfirst : firstBadRegister (b :: ops) = some b := List.find?_cons_of_pos (by simpa using hb)
    rw [withReg_of_ge (by omega), RegistersChecked, hfirst]

theorem registersChecked_withReg {ra : Byte} {k : Fin 8 → Result} (h : ∀ a, NoRegisterFault s (k a)) :
    RegistersChecked [ra] s (withReg ra s k) := registersChecked_cons h

theorem registersChecked_withRegs {ra rb : Byte} {k : Fin 8 → Fin 8 → Result}
    (h : ∀ a b, NoRegisterFault s (k a b)) : RegistersChecked [ra, rb] s (withRegs ra rb s k) :=
  registersChecked_cons fun a => registersChecked_cons (h a)

theorem registersChecked_aluBinary (f : Byte → Byte → Byte) (ra rb : Byte) :
    RegistersChecked [ra, rb] s (aluBinary f ra rb s) :=
  registersChecked_withRegs fun _ _ => noRegisterFault_next (.inl rfl)

theorem registersChecked_branchIf (taken : Bool) (ra : Byte) : RegistersChecked [ra] s (branchIf taken ra s) :=
  registersChecked_withReg fun _ => noRegisterFault_next (by cases taken <;> exact .inl rfl)

end

/-- Every instruction checks its register operands in order, and its own rule raises no BOUNDS_REGISTER (R105, R211). -/
theorem exec_registersChecked (i : Instr) (s : State) : RegistersChecked i.regOperands s (exec i s) := by
  unfold exec
  cases i with
  | hlt => exact noRegisterFault_next (.inr rfl)
  | ldi ra _ | prn ra | not ra => exact registersChecked_withReg fun _ => noRegisterFault_next (.inl rfl)
  | add ra rb | sub ra rb | mul ra rb | and ra rb | or ra rb | xor ra rb | shl ra rb | shr ra rb =>
    exact registersChecked_aluBinary _ ra rb
  | cmp ra rb => exact registersChecked_withRegs fun _ _ => noRegisterFault_next (.inl rfl)
  | mod ra rb =>
    refine registersChecked_withRegs fun a b => ?_
    split
    · exact noRegisterFault_raise (by decide) _
    · exact noRegisterFault_next (.inl rfl)
  | jmp ra | jeq ra | jne ra => exact registersChecked_branchIf _ ra
  | push ra =>
    exact registersChecked_withReg fun _ => noRegisterFault_withSpDown (noRegisterFault_next (.inl rfl))
  | pop ra =>
    exact registersChecked_withReg fun _ => noRegisterFault_withSpUp (noRegisterFault_next (.inl rfl))
  | call ra =>
    refine registersChecked_withReg fun _ => noRegisterFault_withSpDown ?_
    dsimp only
    split
    · exact noRegisterFault_raise (by decide) _
    · exact noRegisterFault_next (.inl rfl)
  | ret => exact noRegisterFault_withSpUp (noRegisterFault_next (.inl rfl))

/-- Settles O10: both halves are `exec_registersChecked`, with and without an operand byte of 8 or more. -/
theorem registerOperandsAreChecked : Obligations.RegisterOperandsAreChecked := by
  refine ⟨fun i s b hb => ?_, fun i s n hr hwf => ?_, fun _ _ => rfl⟩
  · have hb' : firstBadRegister i.regOperands = some b := hb
    have h := exec_registersChecked i s
    rwa [RegistersChecked, hb'] at h
  · have h := exec_registersChecked i s
    rw [RegistersChecked, firstBadRegister_of_wellFormed hwf] at h
    exact h hr n

end Sys2Proof.Machine

/-! SUPPORT. The proofs of the family 40_engine_and_system: the step at an opcode byte under any opcode map, the order
of its faults, its outcomes, how a run ends, and the rules of HLT, LDI and PRN. -/

namespace Sys2Proof

/-- The operand bytes of a built instruction are as many of the two given as its width asks for (R71, R103). -/
theorem Op.operands_build (o : Op) (a b : Byte) : (o.build a b).operands = [a, b].take (o.width - 1) := by
  cases o <;> rfl

end Sys2Proof

namespace Sys2Proof.Machine

/-! ### The step at an opcode byte -/

section
variable {m : OpcodeMap} {s : State}

/-- `step_of_fetch_ok` under any opcode map. -/
theorem stepWith_of_fetch_ok {i : Instr} (hr : s.run = .running) (h : fetchWith m s = .ok i) :
    stepWith m s = exec i s := by simp [stepWith, hr, h]

/-- `step_of_fetch_error` under any opcode map. -/
theorem stepWith_of_fetch_error {f : FaultRecord} (hr : s.run = .running) (h : fetchWith m s = .error f) :
    stepWith m s = .next (s.takeFault f.cause f.info) := by simp [stepWith, hr, h, raise]

section
variable {o : Op} (ho : opFor m (s.mem.read s.pc.toNat) = some o)
include ho

/-- Where every byte of the instruction lies inside memory, the fetch gives it with the two bytes after the opcode for
operands (R72, R103). -/
theorem fetchWith_of_fits (hw : s.pc.toNat + o.width ≤ 256) :
    fetchWith m s = .ok (o.build (s.mem.read (s.pc.toNat + 1)) (s.mem.read (s.pc.toNat + 2))) := by
  have hpos := o.width_cases
  refine fetchWith_ok (decodeFrom_of_bytes (s.codeAt_of_lt (k := 0) (by omega)) (by rwa [Op.op_build]) fun k hk => ?_)
  have hlen := (o.build (s.mem.read (s.pc.toNat + 1)) (s.mem.read (s.pc.toNat + 2))).operands_length
  rw [Op.op_build] at hlen
  rw [s.codeAt_of_lt (by omega), Op.operands_build, List.getElem?_take_of_lt (by omega)]
  obtain rfl | rfl : k = 0 ∨ k = 1 := by omega
  · rfl
  · rfl

/-- Where a byte of the instruction would lie at 256 or above, the fetch stops at the first that does, which is the byte
at 256 (R103, R204). -/
theorem fetchWith_of_exceeds (hpc : s.pc.toNat < 256) (hw : 256 < s.pc.toNat + o.width) :
    fetchWith m s = .error ⟨.boundsOperand, 256⟩ := by
  have stops : ∀ k, s.pc.toNat + k = 256 → decodeFrom m s.codeAt = .error (.missingOperand k) →
      fetchWith m s = .error ⟨.boundsOperand, 256⟩ := fun k hk hd => by
    rw [fetchWith_error hd, fetchFault, hk]
  have h0 : s.codeAt 0 = some (s.mem.read s.pc.toNat) := s.codeAt_of_lt hpc
  rcases o.width_cases with hw' | hw' | hw'
  · omega
  · refine stops 1 (by omega) ?_
    rw [decodeFrom_width_two h0 ho hw', s.codeAt_of_ge (k := 1) (by omega)]
  · by_cases h1 : s.pc.toNat + 1 < 256
    · refine stops 2 (by omega) ?_
      rw [decodeFrom_width_three h0 ho hw', s.codeAt_of_lt h1, s.codeAt_of_ge (k := 2) (by omega)]
    · refine stops 1 (by omega) ?_
      rw [decodeFrom_width_three h0 ho hw', s.codeAt_of_ge (k := 1) (by omega)]

end

/-- A running step at an opcode byte whose instruction lies inside memory runs it (R100). -/
theorem step_of_fits {o : Op} (hr : s.run = .running) (ho : opFor opcodeMap (s.mem.read s.pc.toNat) = some o)
    (hw : s.pc.toNat + o.width ≤ 256) :
    step s = exec (o.build (s.mem.read (s.pc.toNat + 1)) (s.mem.read (s.pc.toNat + 2))) s :=
  step_of_fetch_ok hr (fetchWith_of_fits ho hw)

/-- A running step with PC outside memory raises BOUNDS_FETCH with PC (R101). -/
theorem stepFaults_of_pc_ge (hr : s.run = .running) (hpc : 256 ≤ s.pc.toNat) :
    StepFaults s .boundsFetch s.pc.toNat :=
  step_of_fetch_error hr (fetchWith_error (decodeFrom_none (s.codeAt_of_ge (k := 0) hpc)))

end

/-- Every instruction is subject to the common fault of its width. -/
theorem operandFetchChecked (o : Op) : OperandFetchChecked o o.width := by
  intro m hm s hr hpc hb hw
  exact stepWith_of_fetch_error hr (fetchWith_of_exceeds (hb ▸ opFor_opcode hm o) hpc hw)

/-- An instruction of one byte executes wherever it is fetched. -/
theorem runsWhereFetched (i : Instr) (hi : i.operands = []) : RunsWhereFetched i i.op := by
  intro m hm s hr hpc hb
  refine stepWith_of_fetch_ok hr (fetchWith_ok (decodeFrom_of_bytes (s.codeAt_of_lt (k := 0) hpc)
    (hb ▸ opFor_opcode hm i.op) fun k hk => ?_))
  rw [hi] at hk
  exact absurd hk k.not_lt_zero

/-- The bytes from PC on, as a list, are those the fetch reads: they end where memory does. -/
theorem State.codeBytes_getElem? (s : State) {k : Nat} (hk : k < 3) : s.codeBytes[k]? = s.codeAt k := by
  have ends : ∀ j, s.codeAt j = none → s.codeAt (j + 1) = none := fun j hj => by
    have hge : 256 ≤ s.pc.toNat + j := by
      by_contra hlt
      rw [s.codeAt_of_lt (by omega)] at hj
      simp at hj
    exact s.codeAt_of_ge (by omega)
  have hlist : s.codeBytes = [0, 1, 2].filterMap s.codeAt := rfl
  obtain rfl | rfl | rfl : k = 0 ∨ k = 1 ∨ k = 2 := by omega
  all_goals
    cases h0 : s.codeAt 0 with
    | none => simp [hlist, h0, ends 0 h0, ends 1 (ends 0 h0)]
    | some b =>
      cases h1 : s.codeAt 1 with
      | none => simp [hlist, h0, h1, ends 1 h1]
      | some c => cases h2 : s.codeAt 2 <;> simp [hlist, h0, h1, h2]

/-- Settles O6: no instruction is longer than the three bytes of `State.codeBytes`, so decoding them is what the fetch
does. -/
theorem stepRunsDecodedInstruction : Obligations.StepRunsDecodedInstruction := by
  intro s i rest hr h
  obtain ⟨hd, -⟩ := decodeWith_eq_ok.mp h
  refine step_of_fetch_ok hr (fetchWith_ok ?_)
  rw [← hd]
  refine decodeFrom_congr (s.codeBytes_getElem? (by omega)).symm fun _ o _ _ k hk => (s.codeBytes_getElem? ?_).symm
  have hwidth := o.width_cases
  omega

/-! ### The order of the faults -/

section
variable {s : State} {ra rb : Byte}

/-- MOD by 0 raises ARITH_MOD_ZERO with the divisor's register (R128, R209). -/
theorem execFaults_mod_zero (ha : ra.toNat < 8) (hb : rb.toNat < 8) (h0 : s.regs[rb.toNat] = 0) :
    ExecFaults (.mod ra rb) s .arithModZero rb.toNat := by
  rw [ExecFaults, exec_mod, execMod, withRegs_of_lt ha hb]
  exact if_pos h0

/-- PUSH at SP 0 raises BOUNDS_STACK (R170, R180). -/
theorem execFaults_push_zero (ha : ra.toNat < 8) (hsp : s.sp = 0) : ExecFaults (.push ra) s .boundsStack 0 := by
  rw [ExecFaults, exec_push, execPush, withReg_of_lt ha]
  exact withSpDown_of_zero hsp _

/-- CALL at SP 0 raises BOUNDS_STACK, whatever its return address (R170, R182, R211). -/
theorem execFaults_call_zero (ha : ra.toNat < 8) (hsp : s.sp = 0) : ExecFaults (.call ra) s .boundsStack 0 := by
  rw [ExecFaults, exec_call, execCall, withReg_of_lt ha]
  exact withSpDown_of_zero hsp _

/-- CALL whose return address fits in no byte raises BOUNDS_RETADDR with it (R182, R207). -/
theorem execFaults_call_retAddr (ha : ra.toNat < 8) (hsp : s.sp ≠ 0) (hpc : 256 ≤ s.pc.toNat + 2) :
    ExecFaults (.call ra) s .boundsRetAddr (s.pc.toNat + 2) := by
  rw [ExecFaults, exec_call, execCall, withReg_of_lt ha, withSpDown_of_ne hsp]
  exact if_pos hpc

/-- POP raises BOUNDS_STACK where the SP to increment, as it is after the load, is 255 (R170, R181). -/
theorem execFaults_pop_max (ha : ra.toNat < 8) (hsp : (s.setReg ⟨ra.toNat, ha⟩ (s.memRead s.sp)).sp = 255) :
    ExecFaults (.pop ra) s .boundsStack 255 := by
  rw [ExecFaults, exec_pop, execPop, withReg_of_lt ha]
  exact withSpUp_of_max hsp _

/-- RET at SP 255 raises BOUNDS_STACK (R170, R183). -/
theorem execFaults_ret_max (hsp : s.sp = 255) : ExecFaults .ret s .boundsStack 255 := by
  rw [ExecFaults, exec_ret, execRet]
  exact withSpUp_of_max hsp _

end

/-- Settles O9: the fetch gives the first three faults or the instruction, exec checks the registers first, and then
each of the five instructions with a check of its own raises its fault. -/
theorem stepReportsFirstFault : Obligations.StepReportsFirstFault := by
  intro s hr pc op1 op2
  refine ⟨stepFaults_of_pc_ge hr, stepFaults_of_unknown hr, fun o hpc ho hw => ?_, fun o b ho hw hb => ?_,
    fun o ho hw hregs => ?_⟩
  · exact step_of_fetch_error hr (fetchWith_of_exceeds ho hpc hw)
  · have hcheck := registerOperandsAreChecked.1 (o.build op1 op2) s b (by rwa [Op.regOperands_build])
    exact (step_of_fits hr ho hw).trans hcheck
  · have hstep : step s = exec (o.build op1 op2) s := step_of_fits hr ho hw
    refine ⟨hstep, ?_, ?_, ?_, ?_, ?_, ?_⟩
    · rintro hb rfl h0
      exact hstep.trans (execFaults_mod_zero (hregs op1 (.head _)) hb h0)
    · rintro (rfl | rfl) hsp
      · exact hstep.trans (execFaults_push_zero (hregs op1 (.head _)) hsp)
      · exact hstep.trans (execFaults_call_zero (hregs op1 (.head _)) hsp)
    · rintro rfl hsp hpc
      have hfault := execFaults_call_retAddr (hregs op1 (.head _)) hsp (by omega)
      have hret : s.pc.toNat + 2 = 256 := by omega
      rw [hret] at hfault
      exact hstep.trans hfault
    · rintro rfl hsp
      exact hstep.trans (execFaults_ret_max hsp)
    · rintro rfl h7 hsp
      refine hstep.trans (execFaults_pop_max (hregs op1 (.head _)) ?_)
      exact (State.regs_setReg_of_ne _ (by omega) (Ne.symm h7)).trans hsp
    · rintro rfl h7 hload
      refine hstep.trans (execFaults_pop_max (hregs op1 (.head _)) ?_)
      rw [State.sp, State.getReg_setReg, if_pos (Fin.ext h7)]
      exact hload

/-! ### Outcomes and runs -/

/-- A running step answers a next state. -/
theorem step_total {s : State} (hr : s.run = .running) : ∃ t, step s = .next t := by
  cases hf : fetchWith opcodeMap s with
  | ok i => simpa only [step_of_fetch_ok hr hf] using exec_total i s
  | error f => exact ⟨_, step_of_fetch_error hr hf⟩

/-- Settles O12, by the cases of `step_cases`. -/
theorem stepHasThreeOutcomes : Obligations.StepHasThreeOutcomes := by
  intro s hr
  obtain ⟨t, ht⟩ := step_total hr
  refine ⟨t, ht, ?_⟩
  have faulted : ∀ c n, c ≠ FaultCause.none → t = s.takeFault c n →
      ∃ f : FaultRecord, f.cause ≠ .none ∧ t = { s with run := .faulted, fault := f } :=
    fun c n hc h => ⟨⟨c, n⟩, hc, h⟩
  rcases step_cases ht with ⟨i, hw, ho, he | ⟨c, n, hf, h⟩⟩ | ⟨-, h⟩ | ⟨-, h⟩ | h
  · rcases he.run_eq with hrun | ⟨rfl, hrun⟩
    · exact .inl (hrun.trans hr)
    · exact .inr (.inl ⟨hrun, hw, (opFor_some ho).symm⟩)
  · exact .inr (.inr (faulted c n hf.cause_ne.1 h))
  all_goals exact .inr (.inr (faulted _ _ (by decide) h))

/-- A run from a stopped state has no step in it (R107). -/
theorem runsTo_of_stopped {s t : State} {n : Nat} (hs : s.run ≠ .running) (h : RunsTo n s t) : n = 0 ∧ t = s := by
  cases n with
  | zero => exact ⟨rfl, runsTo_zero.mp h⟩
  | succ n =>
    obtain ⟨u, hu, -⟩ := runsTo_succ.mp h
    exact absurd (running_of_step hu) hs

/-- Settles O11. -/
theorem stoppedStatesAreTerminal : Obligations.StoppedStatesAreTerminal := fun _ hs =>
  ⟨step_of_halted, step_of_faulted, fun _ _ => runsTo_of_stopped hs⟩

/-- Settles O55, by induction on the first run: while it goes on both take the same step, and where it has ended the
other has too. -/
theorem endedRunHasOneResult : Obligations.EndedRunHasOneResult := by
  intro s t u n m hn hm
  obtain ⟨hn, ht⟩ := hn
  obtain ⟨hm, hu⟩ := hm
  induction n generalizing s m with
  | zero =>
    obtain rfl := runsTo_zero.mp hn
    obtain ⟨rfl, rfl⟩ := runsTo_of_stopped ht hm
    exact ⟨rfl, rfl⟩
  | succ n ih =>
    obtain ⟨v, hv, hn⟩ := runsTo_succ.mp hn
    cases m with
    | zero =>
      obtain rfl := runsTo_zero.mp hm
      exact absurd (running_of_step hv) hu
    | succ m =>
      obtain ⟨w, hw, hm⟩ := runsTo_succ.mp hm
      obtain rfl : v = w := Host.Outcome.next.inj (hv.symm.trans hw)
      obtain ⟨rfl, rfl⟩ := ih v m hn hm
      exact ⟨rfl, rfl⟩

/-! ### HLT, LDI and PRN -/

/-- A first register operand of 8 or more raises BOUNDS_REGISTER with it, whatever follows (R105, R211). -/
theorem execFaults_of_first_operand {i : Instr} {s : State} {b : Byte} {ops : List Byte} (hi : i.regOperands = b :: ops)
    (hb : 8 ≤ b.toNat) : ExecFaults i s .boundsRegister b.toNat := by
  refine registerOperandsAreChecked.1 i s b ?_
  rw [hi]
  exact List.find?_cons_of_pos (by simpa using hb)

/-- The state HLT leaves (R110). -/
theorem exec_hlt_eq (s : State) : exec .hlt s = .next (s.halt.advance 1) := rfl

/-- Settles O24. -/
theorem hltHaltsAndAdvances : Obligations.HltHaltsAndAdvances :=
  ⟨runsWhereFetched .hlt rfl, fun _ => rfl, exec_hlt_eq⟩

/-- Settles O47: the one next state of HLT is that of `exec_hlt_eq`. -/
theorem hltFrame : Obligations.HltFrame := by
  intro s t h
  obtain rfl := Host.Outcome.next.inj ((exec_hlt_eq s).symm.trans h)
  exact ⟨rfl, rfl, rfl, rfl, fun _ => rfl⟩

/-- Settles O25: LDI is one checked register operand, then the write. -/
theorem ldiLoadsImmediate : Obligations.LdiLoadsImmediate := by
  refine ⟨operandFetchChecked .ldi, fun s ra imm => ⟨fun _ => rfl, execFaults_of_first_operand rfl, fun ha => ?_⟩⟩
  rw [exec_ldi, execLdi, withReg_of_lt ha]
  rfl

/-- Settles O26: PRN is one checked register operand, then the output of its value. -/
theorem prnEmitsRegister : Obligations.PrnEmitsRegister := by
  refine ⟨operandFetchChecked .prn, fun s ra => ⟨fun _ => rfl, execFaults_of_first_operand rfl, fun ha => ?_⟩⟩
  rw [exec_prn, execPrn, withReg_of_lt ha]
  rfl

end Sys2Proof.Machine

/-! SUPPORT. The proofs of the family 41_alu: the value each ALU operation computes, and the rules of the ALU
instructions and of CMP. -/

namespace Sys2Proof.Machine

/-! ### The values the ALU computes -/

section
variable (a b : Byte)

theorem aluAdd_toNat : (aluAdd a b).toNat = (a.toNat + b.toNat) % 256 := BitVec.toNat_add a b

theorem aluSub_toNat : (aluSub a b).toNat = (a.toNat + 256 - b.toNat) % 256 := by
  have hb := b.isLt
  rw [aluSub, BitVec.toNat_sub]
  congr 1
  omega

theorem aluMul_toNat : (aluMul a b).toNat = a.toNat * b.toNat % 256 := BitVec.toNat_mul a b

theorem aluMod_toNat : (aluMod a b).toNat = a.toNat % b.toNat := BitVec.toNat_umod

theorem aluAnd_getLsbD (i : Nat) : (aluAnd a b).getLsbD i = (a.getLsbD i && b.getLsbD i) := BitVec.getLsbD_and

theorem aluOr_getLsbD (i : Nat) : (aluOr a b).getLsbD i = (a.getLsbD i || b.getLsbD i) := BitVec.getLsbD_or

theorem aluXor_getLsbD (i : Nat) : (aluXor a b).getLsbD i = (a.getLsbD i != b.getLsbD i) := BitVec.getLsbD_xor

theorem aluNot_toNat : (aluNot a).toNat = 255 - a.toNat := BitVec.toNat_not

theorem aluShl_toNat : (aluShl a b).toNat = a.toNat * 2 ^ b.toNat % 256 := by
  rw [aluShl, BitVec.toNat_shiftLeft, Nat.shiftLeft_eq]

theorem aluShr_toNat : (aluShr a b).toNat = a.toNat / 2 ^ b.toNat := by
  rw [aluShr, BitVec.toNat_ushiftRight, Nat.shiftRight_eq_div_pow]

/-- A shift to the left by 8 or more shifts every bit out (R133). -/
theorem aluShl_of_ge (h : 8 ≤ b.toNat) : aluShl a b = 0 := BitVec.shiftLeft_eq_zero h

/-- A shift to the right by 8 or more shifts every bit out (R134). -/
theorem aluShr_of_ge (h : 8 ≤ b.toNat) : aluShr a b = 0 := BitVec.ushiftRight_eq_zero h

end

/-- Comparing unequal operands the other way round swaps G and L (R150). -/
theorem compareFlags_swap {a b : Byte} (h : a ≠ b) :
    (compareFlags a b = 0b010 ∧ compareFlags b a = 0b100) ∨
    (compareFlags a b = 0b100 ∧ compareFlags b a = 0b010) := by
  rcases Nat.lt_or_gt_of_ne (BitVec.toNat_ne.mp h) with hlt | hgt
  · exact .inr ⟨compareFlags_of_lt hlt, compareFlags_of_gt hlt⟩
  · exact .inl ⟨compareFlags_of_gt hgt, compareFlags_of_lt hgt⟩

/-! ### The rule of a two-register instruction -/

section
variable {s t : State} {ra rb : Byte}

/-- A second register operand of 8 or more raises BOUNDS_REGISTER with it where the first names a register (R105,
R211). -/
theorem execFaults_of_second_operand {i : Instr} {ops : List Byte} (hi : i.regOperands = ra :: rb :: ops)
    (ha : ra.toNat < 8) (hb : 8 ≤ rb.toNat) : ExecFaults i s .boundsRegister rb.toNat := by
  refine registerOperandsAreChecked.1 i s rb ?_
  rw [hi, List.find?_cons_of_neg (by simpa using ha)]
  exact List.find?_cons_of_pos (by simpa using hb)

/-- The encoding of a built FRR instruction: its opcode, then both operand bytes (R71, R72). -/
theorem encodedAs_build {o : Op} (ho : o.format = .frr) : EncodedAs (o.build ra rb) o [ra, rb] := by
  intro m
  rw [encodeWith, Op.op_build, Op.operands_build, Op.width, ho]
  rfl

/-- The rule of an instruction whose meaning is `aluBinary f` is what `f` computes: the rest is the same for all. -/
theorem binaryAluRule {o : Op} {f : Byte → Byte → Byte} {result : Byte → Byte → Byte → Prop}
    (ho : o.format = .frr) (hexec : ∀ ra rb s, exec (o.build ra rb) s = aluBinary f ra rb s)
    (hf : ∀ a b, result a b (f a b)) : BinaryAluRule o.build o result := by
  have hops : ∀ ra rb, (o.build ra rb).regOperands = [ra, rb] := fun ra rb => by
    rw [Op.regOperands_build, ho]
    rfl
  have hwidth : o.width = 3 := congrArg Format.width ho
  refine ⟨hwidth ▸ operandFetchChecked o, fun s ra rb => ⟨encodedAs_build ho,
    execFaults_of_first_operand (hops ra rb), execFaults_of_second_operand (hops ra rb), fun ha hb => ?_⟩⟩
  exact ⟨_, hf _ _, (hexec ra rb s).trans (aluBinary_of_lt ha hb f s)⟩

/-- The state MOD leaves where the divisor is not 0 (R128). -/
theorem exec_mod_of_ne (ha : ra.toNat < 8) (hb : rb.toNat < 8) (h0 : s.regs[rb.toNat] ≠ 0) :
    exec (.mod ra rb) s =
      .next ((s.setReg ⟨ra.toNat, ha⟩ (aluMod s.regs[ra.toNat] s.regs[rb.toNat])).advance 3) := by
  rw [exec_mod, execMod, withRegs_of_lt ha hb]
  exact if_neg h0

/-- The state CMP leaves (R150). -/
theorem exec_cmp_of_lt (ha : ra.toNat < 8) (hb : rb.toNat < 8) :
    exec (.cmp ra rb) s = .next ((s.setFl (compareFlags s.regs[ra.toNat] s.regs[rb.toNat])).advance 3) := by
  rw [exec_cmp, execCmp, withRegs_of_lt ha hb]
  rfl

/-- The FL that a completed CMP leaves. -/
theorem fl_of_exec_cmp (ha : ra.toNat < 8) (hb : rb.toNat < 8) (h : exec (.cmp ra rb) s = .next t) :
    t.fl = compareFlags s.regs[ra.toNat] s.regs[rb.toNat] := by
  obtain rfl := Host.Outcome.next.inj ((exec_cmp_of_lt ha hb).symm.trans h)
  rfl

end

/-! ### The instructions -/

/-- Settles O27. -/
theorem addWritesSum : Obligations.AddWritesSum := binaryAluRule (o := .add) rfl exec_add aluAdd_toNat

/-- Settles O28. -/
theorem subWritesDifference : Obligations.SubWritesDifference := binaryAluRule (o := .sub) rfl exec_sub aluSub_toNat

/-- Settles O29. -/
theorem mulWritesLowProduct : Obligations.MulWritesLowProduct := binaryAluRule (o := .mul) rfl exec_mul aluMul_toNat

/-- Settles O31. -/
theorem andWritesBitwiseAnd : Obligations.AndWritesBitwiseAnd :=
  binaryAluRule (o := .and) rfl exec_and fun a b i _ => aluAnd_getLsbD a b i

/-- Settles O32. -/
theorem orWritesBitwiseOr : Obligations.OrWritesBitwiseOr :=
  binaryAluRule (o := .or) rfl exec_or fun a b i _ => aluOr_getLsbD a b i

/-- Settles O33. -/
theorem xorWritesBitwiseXor : Obligations.XorWritesBitwiseXor :=
  binaryAluRule (o := .xor) rfl exec_xor fun a b i _ => aluXor_getLsbD a b i

/-- Settles O35. -/
theorem shlWritesShiftedProduct : Obligations.ShlWritesShiftedProduct :=
  binaryAluRule (o := .shl) rfl exec_shl fun a b => ⟨aluShl_toNat a b, aluShl_of_ge a b⟩

/-- Settles O36. -/
theorem shrWritesFloorQuotient : Obligations.ShrWritesFloorQuotient :=
  binaryAluRule (o := .shr) rfl exec_shr fun a b => ⟨aluShr_toNat a b, aluShr_of_ge a b⟩

/-- Settles O30: the two cases of MOD's rule are a divisor of 0 and any other. -/
theorem modWritesRemainderOrFaults : Obligations.ModWritesRemainderOrFaults := by
  refine ⟨operandFetchChecked .mod, fun s ra rb => ⟨fun _ => rfl, execFaults_of_first_operand rfl,
    execFaults_of_second_operand rfl, fun ha hb => ⟨execFaults_mod_zero ha hb, fun h0 => ?_⟩⟩⟩
  have hv := aluMod_toNat s.regs[ra.toNat] s.regs[rb.toNat]
  have hpos : 0 < s.regs[rb.toNat].toNat := Nat.pos_of_ne_zero (BitVec.toNat_ne.mp h0)
  exact ⟨_, hv, hv ▸ Nat.mod_lt _ hpos, exec_mod_of_ne ha hb h0⟩

/-- Settles O34: NOT is one checked register operand, then the write. -/
theorem notWritesComplement : Obligations.NotWritesComplement := by
  refine ⟨operandFetchChecked .not, fun s ra => ⟨fun _ => rfl, execFaults_of_first_operand rfl, fun ha =>
    ⟨aluNot s.regs[ra.toNat], aluNot_toNat _, ?_⟩⟩⟩
  rw [exec_not, execNot, withReg_of_lt ha]
  rfl

/-- Settles O37: the FL of a completed CMP is `compareFlags` of its operands. -/
theorem cmpSetsExactlyOneFlag : Obligations.CmpSetsExactlyOneFlag := by
  refine ⟨operandFetchChecked .cmp, fun s ra rb => ⟨fun _ => rfl, execFaults_of_first_operand rfl,
    execFaults_of_second_operand rfl, fun ha hb => ?_⟩, fun s t u ra rb ha hb hne ht hu => ?_⟩
  · exact ⟨_, exec_cmp_of_lt ha hb, fun heq => compareFlags_of_eq (congrArg BitVec.toNat heq), compareFlags_of_gt,
      compareFlags_of_lt⟩
  · rw [fl_of_exec_cmp ha hb ht, fl_of_exec_cmp hb ha hu]
    exact compareFlags_swap hne

end Sys2Proof.Machine

/-! SUPPORT. The proofs of the family 42_branch: a branch whose register operand is legal, the rules of JMP, JEQ and JNE,
and the JMP to its own address. -/

namespace Sys2Proof.Machine

/-! ### Branches -/

section
variable {s : State} {ra : Byte}

/-- A jump target as a number: the byte, zero-extended (R28, R160). -/
theorem State.setPc_eq_ofNat (v : Byte) : s.setPc v = { s with pc := BitVec.ofNat 9 v.toNat } := by
  rw [BitVec.ofNat_toNat, State.setPc]

/-- Jumping to the address PC already holds changes nothing. -/
theorem State.setPc_self {v : Byte} (h : v.toNat = s.pc.toNat) : s.setPc v = s := by
  rw [State.setPc_eq_ofNat, h, BitVec.ofNat_toNat, BitVec.setWidth_eq]

/-- A branch that is taken goes to the value of its register (R160). -/
theorem branchIf_true_of_lt (ha : ra.toNat < 8) : branchIf true ra s = .next (s.setPc s.regs[ra.toNat]) :=
  withReg_of_lt ha s _

/-- A branch that is not taken advances by its width (R162, R163). -/
theorem branchIf_false_of_lt (ha : ra.toNat < 8) : branchIf false ra s = .next (s.advance 2) :=
  withReg_of_lt ha s _

/-- The state JMP leaves (R161). -/
theorem exec_jmp_of_lt (ha : ra.toNat < 8) : exec (.jmp ra) s = .next (s.setPc s.regs[ra.toNat]) :=
  branchIf_true_of_lt ha

end

/-- The rule of an instruction whose meaning is `branchIf (cond s.fl)` is what `cond` reads of FL: the rest is the same
for both conditional jumps. -/
theorem branchRule {o : Op} {cond : FlagsWord → Bool} {taken : FlagsWord → Prop} (ho : o.format = .fr)
    (hexec : ∀ ra s, exec (o.build ra 0) s = branchIf (cond s.fl) ra s)
    (htaken : ∀ fl, taken fl ↔ cond fl = true) : BranchRule (fun ra => o.build ra 0) o taken := by
  have hwidth : o.width = 2 := congrArg Format.width ho
  refine ⟨hwidth ▸ operandFetchChecked o, fun s ra => ⟨fun m => ?_, execFaults_of_first_operand (ops := []) ?_,
    fun ha => ⟨fun ht => ?_, fun hn => ?_⟩⟩⟩
  · rw [encodeWith, Op.op_build, Op.operands_build, hwidth]
    rfl
  · rw [Op.regOperands_build, ho]
    rfl
  · rw [hexec, (htaken s.fl).mp ht, branchIf_true_of_lt ha, State.setPc_eq_ofNat]
  · have hcond : cond s.fl = false := Bool.eq_false_iff.mpr fun hc => hn ((htaken s.fl).mpr hc)
    rw [hexec, hcond, branchIf_false_of_lt ha]
    rfl

/-- Settles O38: JMP is one checked register operand, then the jump. -/
theorem jmpGoesToRegister : Obligations.JmpGoesToRegister := by
  refine ⟨operandFetchChecked .jmp, fun s ra => ⟨fun _ => rfl, execFaults_of_first_operand rfl, fun ha => ?_⟩⟩
  rw [exec_jmp_of_lt ha, State.setPc_eq_ofNat]

/-- Settles O39: the condition of JEQ is FL.E. -/
theorem jeqJumpsWhenEqual : Obligations.JeqJumpsWhenEqual :=
  branchRule (o := .jeq) (cond := flagE) rfl exec_jeq fun _ => Iff.rfl

/-- Settles O40: the condition of JNE is that FL.E is not set. -/
theorem jneJumpsWhenNotEqual : Obligations.JneJumpsWhenNotEqual :=
  branchRule (o := .jne) (cond := fun fl => !flagE fl) rfl exec_jne fun _ => (Bool.not_eq_true' _).symm.to_iff

/-! ### The jump to itself -/

/-- Where the step leads back to its state, every run does. -/
theorem runsTo_self {s : State} (h : step s = .next s) : ∀ n, RunsTo n s s
  | 0 => runsTo_zero.mpr rfl
  | n + 1 => runsTo_succ.mpr ⟨s, h, runsTo_self h n⟩

/-- Settles O54: the step runs the stored JMP, which sets PC to the value it has, so every run stays in `s`. -/
theorem jumpToSelfNeverEnds : Obligations.JumpToSelfNeverEnds := by
  intro s ra ha hr hstored hpc
  have hstep : step s = .next s := by
    rw [storedInstructionRuns s (.jmp ra) hr hstored, exec_jmp_of_lt ha, State.setPc_self hpc]
  have hruns := runsTo_self hstep
  exact ⟨fun n => ⟨s, hruns n, hr⟩, hruns⟩

end Sys2Proof.Machine

/-! SUPPORT. The proofs of the family 43_stack: SP as it moves, the state each stack instruction leaves, the rules of PUSH,
POP, CALL and RET, and what a pair of them gives back. -/

namespace Sys2Proof.Machine

/-! ### SP as it moves -/

section
variable {v : Byte}

theorem toNat_sub_one_add_one (h : v ≠ 0) : (v - 1).toNat + 1 = v.toNat := by bv_omega

theorem toNat_add_one_of_ne (h : v ≠ 255) : (v + 1).toNat = v.toNat + 1 := by bv_omega

/-- After a push SP can move up again. -/
theorem sub_one_ne_max (h : v ≠ 0) : v - 1 ≠ 255 := by bv_omega

end

section
variable {s : State} {ra : Byte}

/-- Every register after a move of SP: R7 is the new SP, the others are as before (R24). -/
theorem State.regs_setSp (v : Byte) {j : Nat} (hj : j < 8) :
    (s.setSp v).regs[j] = if j = 7 then v else s.regs[j] := by
  split
  · next h => subst h; exact Vector.getElem_set_self _
  · next h => exact State.regs_setSp_of_ne v hj h

/-- Of two moves of SP the last one counts. -/
theorem State.setSp_setSp (v w : Byte) : (s.setSp v).setSp w = s.setSp w := by
  simp [State.setSp, State.setReg]

/-- Moving SP to where it is changes nothing. -/
theorem State.setSp_self : s.setSp s.sp = s := by
  simp [State.setSp, State.setReg, State.sp, State.getReg]

/-- A register other than R7 is written the same before and after a move of SP. -/
theorem State.setReg_setSp {r : Fin 8} (h : r.val ≠ 7) (v w : Byte) :
    (s.setSp v).setReg r w = (s.setReg r w).setSp v := by
  exact congrArg (fun regs => { s with regs }) (Vector.set_comm v w h.symm)

/-- Writing R7 is moving SP (R24). -/
theorem State.setReg_of_val_eq {r : Fin 8} (h : r.val = 7) (v : Byte) : s.setReg r v = s.setSp v := by
  obtain rfl : r = Config.spReg := Fin.ext h
  rfl

/-- A write of a register other than R7 leaves SP alone. -/
theorem State.sp_setReg_of_ne {r : Fin 8} (h : r.val ≠ 7) (v : Byte) : (s.setReg r v).sp = s.sp :=
  State.regs_setReg_of_ne v (by omega) h.symm

/-! ### The pushed byte -/

/-- What PUSH and CALL begin with: SP one down and a byte stored there (R180, R182). -/
def State.pushByte (s : State) (v : Byte) : State := (s.setSp (s.sp - 1)).memWrite (s.sp - 1) v

@[simp] theorem State.sp_pushByte (v : Byte) : (s.pushByte v).sp = s.sp - 1 := s.sp_setSp _

/-- The byte at the new SP is the pushed one (R59, R171). -/
theorem State.memRead_pushByte (hm : s.mem.wf = true) (v : Byte) : (s.pushByte v).memRead (s.sp - 1) = v :=
  Memory.read_write_same hm _ v

/-- Moving SP back up after a push leaves the stored byte as the only change. -/
theorem State.setSp_pushByte (v : Byte) : (s.pushByte v).setSp s.sp = { s with mem := (s.pushByte v).mem } := by
  have hsp : (s.setSp (s.sp - 1)).setSp s.sp = s := by rw [State.setSp_setSp, State.setSp_self]
  exact congrArg (fun u : State => { u with mem := (s.pushByte v).mem }) hsp

/-! ### The state each instruction leaves -/

/-- The state PUSH leaves: x[rA] is read after the decrement (R172, R180). -/
theorem exec_push_of_lt (ha : ra.toNat < 8) (hsp : s.sp ≠ 0) :
    exec (.push ra) s = .next ((s.pushByte (if ra.toNat = 7 then s.sp - 1 else s.regs[ra.toNat])).advance 2) := by
  rw [exec_push, execPush, withReg_of_lt ha, withSpDown_of_ne hsp, State.sp_setSp, State.getReg_mk, State.regs_setSp,
    State.pushByte]

/-- The state POP of a register other than R7 leaves (R181). -/
theorem exec_pop_of_ne (ha : ra.toNat < 8) (h7 : ra.toNat ≠ 7) (hsp : s.sp ≠ 255) :
    exec (.pop ra) s =
      .next (((s.setReg ⟨ra.toNat, ha⟩ (s.memRead s.sp)).setSp (s.sp + 1)).advance 2) := by
  have hload : (s.setReg ⟨ra.toNat, ha⟩ (s.memRead s.sp)).sp = s.sp := State.sp_setReg_of_ne h7 _
  rw [exec_pop, execPop, withReg_of_lt ha, withSpUp_of_ne (by rwa [hload]), hload]

/-- The state POP R7 leaves: the SP that is incremented is the loaded byte (R172, R181). -/
theorem exec_pop_sp (h7 : ra.toNat = 7) (hv : s.memRead s.sp ≠ 255) :
    exec (.pop ra) s = .next ((s.setSp (s.memRead s.sp + 1)).advance 2) := by
  have ha : ra.toNat < 8 := by omega
  rw [exec_pop, execPop, withReg_of_lt ha, State.setReg_of_val_eq h7, withSpUp_of_ne (by rwa [State.sp_setSp]),
    State.sp_setSp, State.setSp_setSp]

/-- The state CALL leaves: the return address is stored, and x[rA] is read after the decrement (R172, R182). -/
theorem exec_call_of_lt (ha : ra.toNat < 8) (hsp : s.sp ≠ 0) (hpc : s.pc.toNat + 2 < 256) :
    exec (.call ra) s = .next ((s.pushByte (BitVec.ofNat 8 (s.pc.toNat + 2))).setPc
      (if ra.toNat = 7 then s.sp - 1 else s.regs[ra.toNat])) := by
  rw [exec_call, execCall, withReg_of_lt ha, withSpDown_of_ne hsp, State.sp_setSp, State.getReg_mk, State.regs_setSp]
  exact if_neg (Nat.not_le_of_lt hpc)

/-- The state RET leaves (R183). -/
theorem exec_ret_of_ne (hsp : s.sp ≠ 255) :
    exec .ret s = .next ((s.setSp (s.sp + 1)).setPc (s.memRead s.sp)) := by
  rw [exec_ret, execRet, withSpUp_of_ne hsp]

end

/-! ### The rules -/

/-- Settles O41: the two cases of PUSH's rule are SP 0 and any other. -/
theorem pushStoresBelowSp : Obligations.PushStoresBelowSp := by
  refine ⟨operandFetchChecked .push, fun s ra => ⟨fun _ => rfl, execFaults_of_first_operand rfl, fun ha =>
    ⟨execFaults_push_zero ha, fun hsp => ?_⟩⟩⟩
  exact ⟨s.sp - 1, toNat_sub_one_add_one hsp, exec_push_of_lt ha hsp⟩

/-- Settles O42: for another register than R7 the SP that POP increments is SP as it was, for R7 it is the loaded
byte. -/
theorem popLoadsFromSp : Obligations.PopLoadsFromSp := by
  refine ⟨operandFetchChecked .pop, fun s ra => ⟨fun _ => rfl, execFaults_of_first_operand rfl, fun ha => ?_⟩⟩
  refine ⟨fun h7 hsp => ?_, fun h7 hsp => ?_, fun h7 hv => ?_, fun h7 hv => ?_⟩
  · exact execFaults_pop_max ha ((State.sp_setReg_of_ne h7 _).trans hsp)
  · exact ⟨s.sp + 1, toNat_add_one_of_ne hsp, exec_pop_of_ne ha h7 hsp⟩
  · refine execFaults_pop_max ha ?_
    rw [State.setReg_of_val_eq h7, State.sp_setSp]
    exact hv
  · exact ⟨s.memRead s.sp + 1, toNat_add_one_of_ne hv, exec_pop_sp h7 hv⟩

/-- Settles O43: CALL checks SP, then the return address, and completes where both hold. -/
theorem callPushesReturnAddress : Obligations.CallPushesReturnAddress := by
  refine ⟨operandFetchChecked .call, fun s ra => ⟨fun _ => rfl, execFaults_of_first_operand rfl, fun ha =>
    ⟨execFaults_call_zero ha, execFaults_call_retAddr ha, fun hsp hpc => ?_⟩⟩⟩
  refine ⟨s.sp - 1, BitVec.ofNat 8 (s.pc.toNat + 2), toNat_sub_one_add_one hsp, Nat.mod_eq_of_lt hpc, ?_⟩
  rw [exec_call_of_lt ha hsp hpc, State.setPc_eq_ofNat, apply_ite BitVec.toNat]
  rfl

/-- Settles O44: the two cases of RET's rule are SP 255 and any other. -/
theorem retPopsReturnAddress : Obligations.RetPopsReturnAddress := by
  refine ⟨runsWhereFetched .ret rfl, fun _ => rfl, fun s => ⟨execFaults_ret_max, fun hsp => ?_⟩⟩
  refine ⟨s.sp + 1, toNat_add_one_of_ne hsp, ?_⟩
  rw [exec_ret_of_ne hsp, State.setPc_eq_ofNat]
  rfl

/-! ### What a pair gives back -/

/-- Settles O52: POP loads the byte that PUSH stored, and moves SP back up to where it was. -/
theorem pushThenPopRestores : Obligations.PushThenPopRestores := by
  intro s ra rb ha hb hm hsp
  have ha7 : ra.toNat ≠ 7 := by omega
  have hb7 : rb.toNat ≠ 7 := by omega
  have hb8 : rb.toNat < 8 := by omega
  refine ⟨(s.pushByte s.regs[ra.toNat]).advance 2, exec_push_of_ne (by omega) ha7 hsp, ?_⟩
  set t := (s.pushByte s.regs[ra.toNat]).advance 2
  have htsp : t.sp = s.sp - 1 := s.sp_pushByte s.regs[ra.toNat]
  have hload : t.memRead (s.sp - 1) = s.regs[ra.toNat] := State.memRead_pushByte hm _
  have hback : t.setSp s.sp = { s with mem := t.mem, pc := s.pc + 2 } :=
    congrArg (fun u => u.advance 2) (s.setSp_pushByte s.regs[ra.toNat])
  rw [exec_pop_of_ne hb8 hb7 (htsp ▸ sub_one_ne_max hsp), htsp, hload, BitVec.sub_add_cancel,
    ← State.setReg_setSp hb7, hback]
  rfl

/-- Settles O53: RET goes to the address that CALL stored, and moves SP back up to where it was. -/
theorem callThenRetReturns : Obligations.CallThenRetReturns := by
  intro s ra ha hm hsp hpc
  refine ⟨_, exec_call_of_lt ha hsp hpc, ?_⟩
  set t := (s.pushByte (BitVec.ofNat 8 (s.pc.toNat + 2))).setPc
    (if ra.toNat = 7 then s.sp - 1 else s.regs[ra.toNat])
  have htsp : t.sp = s.sp - 1 := s.sp_pushByte (BitVec.ofNat 8 (s.pc.toNat + 2))
  have hload : t.memRead (s.sp - 1) = BitVec.ofNat 8 (s.pc.toNat + 2) := State.memRead_pushByte hm _
  have hback : t.setSp s.sp = { s with mem := t.mem, pc := t.pc } :=
    congrArg (fun u : State => { u with pc := t.pc }) (s.setSp_pushByte (BitVec.ofNat 8 (s.pc.toNat + 2)))
  have hret : (BitVec.ofNat 8 (s.pc.toNat + 2)).setWidth 9 = s.pc + 2 := by bv_omega
  rw [exec_ret_of_ne (htsp ▸ sub_one_ne_max hsp), htsp, hload, BitVec.sub_add_cancel, hback, State.setPc, hret]

end Sys2Proof.Machine

/-! SUPPORT. The proofs of the family 60_exceptions: a fault is precise. -/

namespace Sys2Proof.Machine

section
variable {s t : State} {i : Instr}

/-- A completed instruction does not end a running machine FAULTED (R106). -/
theorem Effect.run_ne_faulted (h : Effect s i t) (hr : s.run = .running) : t.run ≠ .faulted := by
  rcases h.run_eq with ht | ⟨-, ht⟩
  · simp [ht, hr]
  · simp [ht]

/-- A running step that ends FAULTED took a fault in the state it started from, and its cause is one that R210 lets
be raised. -/
theorem step_faulted (h : step s = .next t) (ht : t.run = .faulted) :
    ∃ c n, (c ≠ .none ∧ c ≠ .arithUnsupported) ∧ t = s.takeFault c n := by
  rcases step_cases h with ⟨i, -, -, he | ⟨c, n, hf, rfl⟩⟩ | ⟨-, rfl⟩ | ⟨-, rfl⟩ | rfl
  · exact absurd ht (he.run_ne_faulted (running_of_step h))
  · exact ⟨c, n, hf.cause_ne, rfl⟩
  all_goals exact ⟨_, _, by decide, rfl⟩

end

/-- Settles O13: the only faulting step is `takeFault`, which writes nothing but the run state and the fault record. -/
theorem faultsArePrecise : Obligations.FaultsArePrecise := by
  intro s t _ h ht
  obtain ⟨c, n, ⟨hnone, hunsupported⟩, rfl⟩ := step_faulted h ht
  exact ⟨rfl, rfl, rfl, rfl, rfl, hnone, hunsupported⟩

end Sys2Proof.Machine

/-! SUPPORT. The proofs of the family 70_reset_and_hazards: the state after reset, and the load of a program. -/

namespace Sys2Proof.Machine

/-! ### The bytes of a stored run -/

/-- Storing bytes from `a` upward leaves the addresses behind the last one alone. -/
theorem Memory.read_writeBytes_of_ge (m : Memory) (a : Nat) (vs : List Byte) {b : Nat} (hb : a + vs.length ≤ b) :
    (m.writeBytes a vs).read b = m.read b := by
  induction vs generalizing m a with
  | nil => rfl
  | cons v vs ih =>
    rw [List.length_cons] at hb
    rw [Memory.writeBytes, ih _ (a + 1) (by omega)]
    split
    · exact Memory.read_write_of_ne m v (by omega)
    · rfl

/-- A run of bytes that fits in canonical memory reads back byte by byte. The first byte keeps its value because the
rest of the run lies above it. -/
theorem Memory.read_writeBytes_getElem {m : Memory} (hm : m.wf = true) (a : Nat) (vs : List Byte)
    (hfit : a + vs.length ≤ 256) (k : Nat) (hk : k < vs.length) : (m.writeBytes a vs).read (a + k) = vs[k] := by
  induction vs generalizing m a k with
  | nil => simp at hk
  | cons v vs ih =>
    rw [List.length_cons] at hfit
    have ha : a < Config.memSize := show a < 256 by omega
    rw [Memory.writeBytes, if_pos ha]
    cases k with
    | zero => exact (Memory.read_writeBytes_of_lt _ _ vs (by omega)).trans (Memory.read_write_same hm a v)
    | succ k =>
      have hrest := ih (Memory.wf_write hm ha v) (a + 1) (by omega) k (by simpa using hk)
      rwa [Nat.add_right_comm] at hrest

/-! ### Reset and load -/

/-- Right after reset every register but R7 holds 0 (R25, R230). -/
theorem State.regs_resetWith_of_lt (flInit : FlagsWord) {r : Nat} (hr : r < 7) :
    (State.resetWith flInit).regs[r] = 0 := by
  interval_cases r <;> rfl

/-- A program of more than 256 bytes does not start (R240). -/
theorem State.boot_of_gt (flInit : FlagsWord) {program : List Byte} (h : 256 < program.length) :
    State.boot flInit program = none :=
  if_neg (Nat.not_le_of_lt h)

/-- A program of at most 256 bytes starts with its bytes stored from address 0 upward (R240). -/
theorem State.boot_of_le (flInit : FlagsWord) {program : List Byte} (h : program.length ≤ 256) :
    State.boot flInit program =
      some { State.resetWith flInit with mem := (State.resetWith flInit).mem.writeBytes 0 program } :=
  if_pos h

/-- Settles O15: what the load leaves at an address is what storing the program from address 0 upward leaves there,
and reset memory reads 0 behind its end. -/
theorem programLoad : Obligations.ProgramLoad := by
  intro flInit program
  refine ⟨State.boot_of_gt flInit, fun h => ⟨_, State.boot_of_le flInit h, fun k hk => ?_, fun a ha => ?_, rfl⟩⟩
  · simpa using Memory.read_writeBytes_getElem (reset_memory_wf flInit) 0 program (by omega) k hk
  · exact Memory.read_writeBytes_of_ge _ 0 program (by omega)

/-- Settles O14: R0 to R6 are `State.regs_resetWith_of_lt`, and every other field is read off the reset state. -/
theorem resetState : Obligations.ResetState :=
  ⟨fun flInit => ⟨Memory.read_nil, fun _ hr => State.regs_resetWith_of_lt flInit hr, rfl, rfl, rfl, rfl, rfl, rfl, rfl⟩,
    rfl⟩

end Sys2Proof.Machine
